-- ==== Sys2Proof/Word.lean ====
section
/-! DEFINITION. The byte of the wire and the two word widths (spec/00_scope.md R5, R8, R9).

Values the spec calls unsigned integers of any magnitude (addresses and words at a port, R23) are natural numbers;
a byte on the wire, and a field of a fixed width inside an encoded frame, is a bit vector. -/

namespace Sys2Proof

/-- One byte of a byte sequence, an unsigned integer in 0 to 255, bit 0 the least significant (R8, R9). -/
abbrev Byte := BitVec 8

/-- The legal values of `word_width` (R5, R21): no other width can ever be held. -/
inductive WordWidth where
  | w8
  | w16
deriving DecidableEq, Repr

/-- `W`, the width in bits of one data word (R6). -/
def WordWidth.bits : WordWidth → Nat
  | .w8 => 8
  | .w16 => 16

end Sys2Proof
end

