-- ==== Sys2Proof/Syntax.lean ====
section
/-! DEFINITION. Operands, instructions and the forms in which they are offered to the block.

One constructor of `Instr` for each row of spec/opcode_table.json: the three operations of the command port
(spec/30_encoding.md R82) and the twelve frame kinds `<kind>.<format>` (R78). -/

namespace Sys2Proof

/-- A valid mode (the document's AddressMode, R5): the only thing `session` can hold (R21). -/
structure Mode where
  extendedAddress : Bool
  burstCapable : Bool
  wordWidth : WordWidth
deriving DecidableEq, Repr

/-- The operand of CONFIGURE, and the mode argument of the two pure functions: `word_width` is an unsigned integer of
any magnitude (R23, R101, R110). -/
structure CandidateMode where
  extendedAddress : Bool
  burstCapable : Bool
  wordWidth : Nat
deriving DecidableEq, Repr

/-- One logical transfer (R23). Nothing is checked or derived here: an ill-formed frame is a legal operand of ENCODE,
which answers it with a status (R83, R110). -/
structure Frame where
  address : Nat
  isWrite : Bool
  isBurst : Bool
  values : List Nat
deriving DecidableEq, Repr

/-- The one word of a frame of kind RD or WR, of the session's width (R77). -/
inductive Datum where
  | byte (v : BitVec 8)
  | word (v : BitVec 16)
deriving DecidableEq, Repr

/-- The words of a frame of kind RDB or WRB, all of one width (R77). -/
inductive Payload where
  | bytes (vs : List (BitVec 8))
  | words (vs : List (BitVec 16))
deriving DecidableEq, Repr

def Datum.width : Datum → WordWidth
  | .byte _ => .w8
  | .word _ => .w16

/-- The word as the unsigned integer a Frame carries. -/
def Datum.value : Datum → Nat
  | .byte v => v.toNat
  | .word v => v.toNat

def Payload.width : Payload → WordWidth
  | .bytes _ => .w8
  | .words _ => .w16

/-- The words as the unsigned integers a Frame carries, in `values` order. -/
def Payload.values : Payload → List Nat
  | .bytes vs => vs.map BitVec.toNat
  | .words vs => vs.map BitVec.toNat

/-- The instructions: one constructor for each row of spec/opcode_table.json. The address field of a frame kind has the
`AW` bits its header format gives it (R71). -/
inductive Instr where
  | rdS7 (a : BitVec 7) (p : Datum)
  | wrS7 (a : BitVec 7) (v : Datum)
  | rdS6B (a : BitVec 6) (p : Datum)
  | wrS6B (a : BitVec 6) (v : Datum)
  | rdbS6B (a : BitVec 6) (ps : Payload)
  | wrbS6B (a : BitVec 6) (vs : Payload)
  | rdX15 (a : BitVec 15) (p : Datum)
  | wrX15 (a : BitVec 15) (v : Datum)
  | rdX14B (a : BitVec 14) (p : Datum)
  | wrX14B (a : BitVec 14) (v : Datum)
  | rdbX14B (a : BitVec 14) (ps : Payload)
  | wrbX14B (a : BitVec 14) (vs : Payload)
  | configure (c : CandidateMode)
  | encode (f : Frame)
  | decodeResponse (raw : List Byte)
deriving DecidableEq, Repr

/-- The mode a frame kind belongs to: its header format gives `extended_address` and `burst_capable` (R71), its words
give `word_width` (R78: the width is not part of the kind). The three operations belong to no mode. -/
def Instr.frameMode : Instr → Option Mode
  | .rdS7 _ p => some ⟨false, false, p.width⟩
  | .wrS7 _ v => some ⟨false, false, v.width⟩
  | .rdS6B _ p => some ⟨false, true, p.width⟩
  | .wrS6B _ v => some ⟨false, true, v.width⟩
  | .rdbS6B _ ps => some ⟨false, true, ps.width⟩
  | .wrbS6B _ vs => some ⟨false, true, vs.width⟩
  | .rdX15 _ p => some ⟨true, false, p.width⟩
  | .wrX15 _ v => some ⟨true, false, v.width⟩
  | .rdX14B _ p => some ⟨true, true, p.width⟩
  | .wrX14B _ v => some ⟨true, true, v.width⟩
  | .rdbX14B _ ps => some ⟨true, true, ps.width⟩
  | .wrbX14B _ vs => some ⟨true, true, vs.width⟩
  | .configure _ | .encode _ | .decodeResponse _ => none

/-- The operand ports of the command port, side by side; the op code says which one the operation reads (R23, R82;
the ports are named only, decision D8; notes/assumptions/7.md). -/
structure Operand where
  mode : CandidateMode
  frame : Frame
  raw : List Byte
deriving DecidableEq, Repr

/-- All operand ports at zero: what an operation leaves on the ports it does not read. -/
def Operand.zero : Operand := ⟨⟨false, false, 0⟩, ⟨0, false, false, []⟩, []⟩

/-- What is offered to the block for one step: a command, or one frame in its wire form, delimited as chip-select
delimits it (R70, R79). -/
inductive Offer where
  | command (op : BitVec 2) (operand : Operand)
  | frame (bytes : List Byte)
deriving DecidableEq, Repr

/-- One thing the user does to the block between two operations: the reset event (R200) or an offer. -/
inductive Input where
  | reset
  | offer (o : Offer)
deriving DecidableEq, Repr

end Sys2Proof
end

