-- ==== Sys2Proof/WellFormed.lean ====
section
/-! DEFINITION. Well-formed instructions.

The bounds on an address (`AW` bits) and on a word (`W` bits) are in the types of `Instr`'s fields. What is left to check
is the word count of a burst (spec/30_encoding.md R78: `N` is 2 or more). The three operations take any operand at all:
an operand they do not accept is answered with a status, it is not ill-formed (R101, R110, R140). -/

namespace Sys2Proof

/-- A burst carries two or more words (R78, R112). -/
def Payload.isBurst (p : Payload) : Bool := decide (2 ≤ p.values.length)

/-- The instruction is one its row of the opcode table admits. -/
def Instr.wellFormed : Instr → Bool
  | .rdbS6B _ ps => ps.isBurst
  | .wrbS6B _ vs => vs.isBurst
  | .rdbX14B _ ps => ps.isBurst
  | .wrbX14B _ vs => vs.isBurst
  | .rdS7 _ _ | .wrS7 _ _ | .rdS6B _ _ | .wrS6B _ _ => true
  | .rdX15 _ _ | .wrX15 _ _ | .rdX14B _ _ | .wrX14B _ _ => true
  | .configure _ | .encode _ | .decodeResponse _ => true

end Sys2Proof
end

