-- ==== Sys2Proof/Decode.lean ====
section
/-! DEFINITION. Decoding and encoding, both written from the pictures of spec/30_encoding.md R71 (headers), R77 (words) and
R82 (op codes).

The mode is not on the wire and the same bytes mean different frames under different modes (R80), so a frame is decoded
under the session's mode. Decoding is total: what is no instruction is rejected by name. -/

namespace Sys2Proof

/-- Why an offer decodes to no instruction. -/
inductive DecodeError where
  /-- op = 3 on the command port (R82, R179). -/
  | reservedOp
  /-- A frame in wire form while no session exists: there is no mode to read it with (R80, R177). -/
  | noMode
  /-- Fewer bytes than the header has (R81 first row, R156). -/
  | shortHeader
  /-- The bytes after the header are not a whole number of words (R81 second row, R156). -/
  | partialWord
  /-- A header with no word after it (R81 first row, R156). -/
  | noWord
  /-- No `B` flag, or `B = 0`, with several words; or `B = 1` with one word (R81 last two rows, R156). -/
  | burstMismatch
deriving DecidableEq, Repr

/-! ## Decoding -/

/-- Group payload bytes into 16-bit words, the first byte of each pair the more significant (R44, R77); no result if one
byte is left over. -/
def pairBytes : List Byte → Option (List (BitVec 16))
  | [] => some []
  | [_] => none
  | hi :: lo :: rest => (pairBytes rest).map ((hi ++ lo) :: ·)

/-- The payload as words of the session's width (R70, R77). -/
def decodePayload (w : WordWidth) (bs : List Byte) : Except DecodeError Payload :=
  match w with
  | .w8 => .ok (.bytes bs)
  | .w16 =>
    match pairBytes bs with
    | some vs => .ok (.words vs)
    | none => .error .partialWord

/-- The payload of a frame without `B`, or with `B = 0`: exactly one word (R78, R81). -/
def Payload.one : Payload → Except DecodeError Datum
  | .bytes [v] => .ok (.byte v)
  | .words [v] => .ok (.word v)
  | .bytes [] | .words [] => .error .noWord
  | .bytes (_ :: _ :: _) | .words (_ :: _ :: _) => .error .burstMismatch

/-- The payload of a frame with `B = 1`: two or more words (R78, R81). -/
def Payload.many (p : Payload) : Except DecodeError Payload :=
  match p.values with
  | [] => .error .noWord
  | [_] => .error .burstMismatch
  | _ :: _ :: _ => .ok p

/-- Format S7 (R71): `W` in bit 7, the address in bits 6 to 0. -/
def decodeS7 (hv : BitVec 8) (p : Payload) : Except DecodeError Instr :=
  let a := hv.extractLsb' 0 7
  if hv.getLsbD 7 then p.one.map (Instr.wrS7 a) else p.one.map (Instr.rdS7 a)

/-- Format S6B (R71): `W` in bit 7, `B` in bit 6, the address in bits 5 to 0. -/
def decodeS6B (hv : BitVec 8) (p : Payload) : Except DecodeError Instr :=
  let a := hv.extractLsb' 0 6
  match hv.getLsbD 7, hv.getLsbD 6 with
  | false, false => p.one.map (Instr.rdS6B a)
  | true, false => p.one.map (Instr.wrS6B a)
  | false, true => p.many.map (Instr.rdbS6B a)
  | true, true => p.many.map (Instr.wrbS6B a)

/-- Format X15 (R71): `W` in bit 15 of the two-byte header value, the address in bits 14 to 0. -/
def decodeX15 (hv : BitVec 16) (p : Payload) : Except DecodeError Instr :=
  let a := hv.extractLsb' 0 15
  if hv.getLsbD 15 then p.one.map (Instr.wrX15 a) else p.one.map (Instr.rdX15 a)

/-- Format X14B (R71): `W` in bit 15, `B` in bit 14, the address in bits 13 to 0. -/
def decodeX14B (hv : BitVec 16) (p : Payload) : Except DecodeError Instr :=
  let a := hv.extractLsb' 0 14
  match hv.getLsbD 15, hv.getLsbD 14 with
  | false, false => p.one.map (Instr.rdX14B a)
  | true, false => p.one.map (Instr.wrX14B a)
  | false, true => p.many.map (Instr.rdbX14B a)
  | true, true => p.many.map (Instr.wrbX14B a)

/-- Read a frame from its bytes under a mode: strip one or two header bytes, byte 0 the most significant (R71, R76), group
the rest into words, and let the header's flags say which frame kind it is (R78). -/
def decodeFrame (m : Mode) (bs : List Byte) : Except DecodeError Instr :=
  match m.extendedAddress, bs with
  | false, b0 :: rest =>
    (decodePayload m.wordWidth rest).bind
      (if m.burstCapable then decodeS6B b0 else decodeS7 b0)
  | true, b0 :: b1 :: rest =>
    (decodePayload m.wordWidth rest).bind
      (if m.burstCapable then decodeX14B (b0 ++ b1) else decodeX15 (b0 ++ b1))
  | false, [] | true, [] | true, [_] => .error .shortHeader

/-- Read a command: the op code names the operation, which takes its own operand port (R82). -/
def decodeCommand (op : BitVec 2) (x : Operand) : Except DecodeError Instr :=
  if op = 0#2 then .ok (.configure x.mode)
  else if op = 1#2 then .ok (.encode x.frame)
  else if op = 2#2 then .ok (.decodeResponse x.raw)
  else .error .reservedOp

/-- The instruction an offer stands for, in a block whose session is `session`. -/
def decode (session : Option Mode) : Offer → Except DecodeError Instr
  | .command op x => decodeCommand op x
  | .frame bs =>
    match session with
    | some m => decodeFrame m bs
    | none => .error .noMode

/-! ## Encoding -/

/-- The two bytes of a 16-bit value, most significant first (R76, R77). -/
def twoBytes (v : BitVec 16) : List Byte := [v.extractLsb' 8 8, v.extractLsb' 0 8]

/-- The header of each format, drawn bit by bit as R71 draws it, leftmost bit first. -/
def headerS7 (w : BitVec 1) (a : BitVec 7) : List Byte := [w ++ a]
def headerS6B (w b : BitVec 1) (a : BitVec 6) : List Byte := [w ++ b ++ a]
def headerX15 (w : BitVec 1) (a : BitVec 15) : List Byte := twoBytes (w ++ a)
def headerX14B (w b : BitVec 1) (a : BitVec 14) : List Byte := twoBytes (w ++ b ++ a)

/-- The bytes of one word (R77). -/
def Datum.wire : Datum → List Byte
  | .byte v => [v]
  | .word v => twoBytes v

/-- The bytes of the words of a burst, in order, with no padding (R77). -/
def Payload.wire : Payload → List Byte
  | .bytes vs => vs
  | .words vs => vs.flatMap twoBytes

/-- The form in which a well-formed instruction is offered to the block: the bytes of a frame kind, header then payload
(R70), or the command of an operation (R82), which leaves at zero the operand ports it does not read. -/
def encode : Instr → Offer
  | .rdS7 a p => .frame (headerS7 0#1 a ++ p.wire)
  | .wrS7 a v => .frame (headerS7 1#1 a ++ v.wire)
  | .rdS6B a p => .frame (headerS6B 0#1 0#1 a ++ p.wire)
  | .wrS6B a v => .frame (headerS6B 1#1 0#1 a ++ v.wire)
  | .rdbS6B a ps => .frame (headerS6B 0#1 1#1 a ++ ps.wire)
  | .wrbS6B a vs => .frame (headerS6B 1#1 1#1 a ++ vs.wire)
  | .rdX15 a p => .frame (headerX15 0#1 a ++ p.wire)
  | .wrX15 a v => .frame (headerX15 1#1 a ++ v.wire)
  | .rdX14B a p => .frame (headerX14B 0#1 0#1 a ++ p.wire)
  | .wrX14B a v => .frame (headerX14B 1#1 0#1 a ++ v.wire)
  | .rdbX14B a ps => .frame (headerX14B 0#1 1#1 a ++ ps.wire)
  | .wrbX14B a vs => .frame (headerX14B 1#1 1#1 a ++ vs.wire)
  | .configure c => .command 0#2 { Operand.zero with mode := c }
  | .encode f => .command 1#2 { Operand.zero with frame := f }
  | .decodeResponse raw => .command 2#2 { Operand.zero with raw := raw }

/-! ## The words of the opcode table

A table row gives the header value (or the op code) alone. Five of its rows have the very bits of another row and differ
from it by the mode only, which is not on the wire (R80): `decodeTableWord` has to read a word under ONE choice. It takes
a word of up to 8 bits below 4 as an op code, any other as a header of format S6B, and a longer one as a header of format
X14B, with 8-bit words after it (notes/assumptions/8.md). -/

/-- The mode a table word is read under; none for a word of the command port. -/
def tableMode (nbits w : Nat) : Option Mode :=
  if nbits ≤ 8 then
    if w < 4 then none else some ⟨false, true, .w8⟩
  else some ⟨true, true, .w8⟩

/-- The offer a table word stands for: the word, then zeros: operand ports of zeros for a command; for a header one word of
zeros, or two if its `B` bit is set (R78). -/
def tableOffer (nbits w : Nat) : Offer :=
  if nbits ≤ 8 then
    if w < 4 then .command (BitVec.ofNat 2 w) Operand.zero
    else .frame (BitVec.ofNat 8 w :: List.replicate (if w.testBit 6 then 2 else 1) 0#8)
  else .frame (twoBytes (BitVec.ofNat 16 w) ++ List.replicate (if w.testBit 14 then 2 else 1) 0#8)

/-- The instruction the decoder reads from a table word. -/
def decodeTableWord (nbits w : Nat) : Option Instr :=
  (decode (tableMode nbits w) (tableOffer nbits w)).toOption

end Sys2Proof
end

