-- ==== Sys2Proof/Machine/State.lean ====
section
/-! DEFINITION. The state of the machine, its outcomes and its reset.

The block keeps ONE piece of state, the register `session` (spec/10_state.md R20, R21). The two other fields are its ports
(R24, decision D8), held in the state because a step is a function of the state alone: what is offered to the block, and
what the last step answered. No operation reads `response` (R24), and nothing of an operand is retained (R23, R29). -/

namespace Sys2Proof.Machine

/-- The status an operation ends with (spec/60_exceptions.md R171). -/
inductive Status where
  | ok
  | unsupportedWidth
  | burstNotSupported
  | addressOutOfRange
  | malformedResponse
  | invalidFrame
  | noSession
  | alreadyConfigured
  | illegalOperation
deriving DecidableEq, Repr

/-- The result of an operation that ended with `OK` (R24): CONFIGURE nothing, ENCODE the byte sequence `out`,
DECODE_RESPONSE the word sequence `words`. -/
inductive Result where
  | nothing
  | bytes (out : List Byte)
  | words (ws : List Nat)
deriving DecidableEq, Repr

/-- What one operation returns (R24): a status and, when the status is `OK`, a result. When it is not, the result is
absent, not empty. -/
structure Response where
  status : Status
  result : Option Result
deriving DecidableEq, Repr

structure State where
  /-- `session` (R20, R21): absent, or present with a valid mode. -/
  session : Option Mode
  /-- What the user offers, first offered first; one entry is consumed per step (R25, R51; notes/assumptions/1.md). -/
  inputs : List Input
  /-- The response of the operation the last step performed, if it performed one (R24; notes/assumptions/2.md). -/
  response : Option Response
deriving DecidableEq, Repr

/-- No condition stops the block: an operation that cannot be done ends with a status, session unchanged, and the block is
ready for the next one (R182, R183). So there is no fault. -/
inductive Fault where
deriving DecidableEq, Repr

/-- Why the model gives a step no meaning. -/
inductive Refusal where
  /-- Raised by `exec`'s arm of an instruction that has no meaning yet (none is left). Safe. -/
  | notModelled (mnemonic : String)
  /-- Raised by `step` on a frame offered in wire form that ENCODE never emits (R81): `parse_frame` calls it malformed (R156)
  and spec/93_implementation_defined.md U4 says to refuse it. Safe. -/
  | malformedFrame (why : DecodeError)
deriving DecidableEq, Repr

/-- The machine right after reset (R29, R201): no session, no operand latched, no result present. -/
def State.reset : State :=
  { session := none
    inputs := []
    response := none }

end Sys2Proof.Machine
end

