-- ==== Sys2Proof/Machine/Operands.lean ====
section
/-! DEFINITION. The constants of a mode and the checks on operands (spec/00_scope.md R6, spec/10_state.md R22,
spec/40_configure.md R100, spec/41_encode.md R110, R112). -/

namespace Sys2Proof.Machine

/-- The mode held by `session` if the candidate is valid, which is when its width is 8 or 16 (R100). -/
def toMode (c : CandidateMode) : Option Mode :=
  if c.wordWidth = 8 then some ⟨c.extendedAddress, c.burstCapable, .w8⟩
  else if c.wordWidth = 16 then some ⟨c.extendedAddress, c.burstCapable, .w16⟩
  else none

/-- A valid mode handed to a pure function, or to CONFIGURE, as its operand. -/
def candidate (m : Mode) : CandidateMode := ⟨m.extendedAddress, m.burstCapable, m.wordWidth.bits⟩

/-- `H`, the header length in bytes (R6). -/
def headerBytes (m : Mode) : Nat := if m.extendedAddress then 2 else 1

/-- `W`, the width of one word in bits (R6). -/
def wordBits (m : Mode) : Nat := m.wordWidth.bits

/-- `S`, the length of one word in bytes (R6). -/
def wordBytes (m : Mode) : Nat := wordBits m / 8

/-- `F`, the number of flag bits in the header (R6). -/
def flagBits (m : Mode) : Nat := if m.burstCapable then 2 else 1

/-- `AW`, the address width in bits (R6). -/
def addressBits (m : Mode) : Nat := 8 * headerBytes m - flagBits m

/-- `ADDR_MASK` (R6). -/
def addressMask (m : Mode) : Nat := 2 ^ addressBits m - 1

/-- `N`, the word count of a frame (R23). -/
def wordCount (f : Frame) : Nat := f.values.length

/-- Every value of the frame is a word of the mode's width (R23: an unsigned integer below `2^W`). -/
def valuesFit (m : Mode) (f : Frame) : Bool := f.values.all (fun v => decide (v < 2 ^ wordBits m))

/-- The burst flag says whether there is more than one word (R23). -/
def burstFlagAgrees (f : Frame) : Bool := f.isBurst == decide (1 < wordCount f)

/-- `WF(mode, frame)`, clause by clause as R112 spells it out. -/
def wellFormedFrame (m : Mode) (f : Frame) : Bool :=
  decide (1 ≤ wordCount f) && burstFlagAgrees f && (m.burstCapable || wordCount f == 1)
    && decide (f.address < 2 ^ addressBits m) && valuesFit m f

/-- The Frame of a frame kind RD or WR: one word, no burst (R113, R114). -/
def singleFrame (address : Nat) (isWrite : Bool) (d : Datum) : Frame := ⟨address, isWrite, false, [d.value]⟩

/-- The Frame of a frame kind RDB or WRB (R115, R116). -/
def burstFrame (address : Nat) (isWrite : Bool) (p : Payload) : Frame := ⟨address, isWrite, true, p.values⟩

end Sys2Proof.Machine
end

