-- ==== Sys2Proof/Machine/Flags.lean ====
section
/-! DEFINITION. The two header flags `W` and `B` (spec/30_encoding.md R72, R73) and the header value they are part of (R75).

The block has no flag that persists (spec/10_state.md R26): these two are inputs copied into the header. -/

namespace Sys2Proof.Machine

/-- `WRITE_BIT` (R6). -/
def writeBit (m : Mode) : Nat := 1 <<< (8 * headerBytes m - 1)

/-- `BURST_BIT` (R6), defined only in a burst-capable mode. -/
def burstBit (m : Mode) : Option Nat := if m.burstCapable then some (1 <<< (8 * headerBytes m - 2)) else none

/-- What the write flag contributes to the header value (R72, R75). -/
def writeField (m : Mode) (f : Frame) : Nat := if f.isWrite then writeBit m else 0

/-- What the burst flag contributes to the header value (R73, R75): nothing in a mode that has no `B` field. -/
def burstField (m : Mode) (f : Frame) : Nat := if f.isBurst then (burstBit m).getD 0 else 0

/-- `hv`, the header value (R75). -/
def headerValue (m : Mode) (f : Frame) : Nat :=
  (f.address &&& addressMask m) ||| writeField m f ||| burstField m f

end Sys2Proof.Machine
end

