-- ==== Sys2Proof/Machine/Ops.lean ====
section
/-! DEFINITION. The named operations: big-endian access to byte sequences, reading and writing the session, ending an
operation, raising a status, reset, and taking the next offer. -/

namespace Sys2Proof.Machine

/-! ## Byte sequences (spec/00_scope.md R10, spec/20_memory.md R45) -/

/-- `be(n, v)`: the `n` bytes of `v`, most significant first. -/
def be : Nat → Nat → List Byte
  | 0, _ => []
  | n + 1, v => BitVec.ofNat 8 (v / 256 ^ n) :: be n v

/-- `MemWrite(k, n, v)` with `k` the length of what is already written: writes are made in increasing `k` with no gap, so
it appends (R10). -/
def memWrite (out : List Byte) (n v : Nat) : List Byte := out ++ be n v

/-- `MemRead(k, n)`: the unsigned integer whose big-endian bytes are `raw[k .. k+n-1]`. -/
def memRead (raw : List Byte) (k n : Nat) : Nat :=
  ((raw.drop k).take n).foldl (fun acc b => acc * 256 + b.toNat) 0

/-! ## Fields of the state -/

def State.setSession (s : State) (m : Option Mode) : State := { s with session := m }
def State.setInputs (s : State) (is : List Input) : State := { s with inputs := is }
def State.setResponse (s : State) (r : Option Response) : State := { s with response := r }

/-! ## Ending an operation -/

/-- The operation ends with `OK` and a result (R10 `return`, R24). -/
def finish (r : Result) (s : State) : State := s.setResponse (some ⟨.ok, some r⟩)

/-- Raising a status (R10 `raise`, R182): the operation stops, the result is absent, `session` keeps its value, the status
goes to the caller; nothing is saved and control goes nowhere, so there is nothing to return from (R183). -/
def raise (st : Status) (s : State) : State := s.setResponse (some ⟨st, none⟩)

/-- What a pure function answers, returned as the response of the operation that called it. -/
def answer (r : Except Status Result) (s : State) : State :=
  match r with
  | .ok x => finish x s
  | .error st => raise st s

/-! ## Between operations -/

/-- The reset event (R200, R201): `session` becomes absent and nothing is latched. What the user goes on to offer is the
user's, not the block's. -/
def resetBlock (s : State) : State := (s.setSession none).setResponse none

/-- Nothing is offered: nothing happens in the block (R185), and no status is latched (R170). -/
def idle (s : State) : State := s.setResponse none

/-- The first input and the state that no longer holds it. -/
def takeInput (s : State) : Option (Input × State) :=
  match s.inputs with
  | [] => none
  | i :: rest => some (i, s.setInputs rest)

/-- An offer that is no instruction: the reserved op code raises `IllegalOperation` (R179), a frame offered without a
session raises `NoSession` (R177), and a frame ENCODE never emits has no meaning (R81, R156). -/
def reject (e : DecodeError) (s : State) : Host.Outcome State Fault Refusal :=
  match e with
  | .reservedOp => .next (raise .illegalOperation s)
  | .noMode => .next (raise .noSession s)
  | .shortHeader => .refused (.malformedFrame .shortHeader)
  | .partialWord => .refused (.malformedFrame .partialWord)
  | .noWord => .refused (.malformedFrame .noWord)
  | .burstMismatch => .refused (.malformedFrame .burstMismatch)

/-- The code of a status (R171). -/
def Status.code : Status → Nat
  | .ok => 0
  | .unsupportedWidth => 1
  | .burstNotSupported => 2
  | .addressOutOfRange => 3
  | .malformedResponse => 4
  | .invalidFrame => 5
  | .noSession => 6
  | .alreadyConfigured => 7
  | .illegalOperation => 8

/-- Offer a word of the opcode table as the very next input, under the mode it is read in: a frame can only be fetched in a
session (R80, R177), so its mode is put into `session`; a command needs nothing (notes/assumptions/8.md, 9.md). -/
def offerTableWord (s : State) (nbits w : Nat) : State :=
  let s := s.setInputs (.offer (tableOffer nbits w) :: s.inputs)
  match tableMode nbits w with
  | some m => s.setSession (some m)
  | none => s

end Sys2Proof.Machine
end

