-- ==== Sys2Proof/Machine/Codec.lean ====
section
/-! DEFINITION. The two pure functions of the codec, `encode` (spec/41_encode.md R110) and `decode_response`
(spec/42_decode_response.md R140), and `parse_frame`, the inverse of `encode` (spec/43_frame_meaning_and_laws.md R156). -/

namespace Sys2Proof.Machine

/-- The bytes of a frame that has passed every check: the header, then word `i` at `H + i*S` (R110 steps 5 and 6). -/
def emit (m : Mode) (f : Frame) : List Byte :=
  f.values.foldl (fun out v => memWrite out (wordBytes m) v) (memWrite [] (headerBytes m) (headerValue m f))

/-- Checks 2, 3 and 4 of R110, in that order; the first that fires decides. -/
def checkFrame (m : Mode) (f : Frame) : Except Status Unit :=
  if !m.burstCapable && (f.isBurst || decide (1 < wordCount f)) then .error .burstNotSupported
  else if 2 ^ addressBits m ≤ f.address then .error .addressOutOfRange
  else if wordCount f = 0 then .error .invalidFrame
  else if !burstFlagAgrees f then .error .invalidFrame
  else if !valuesFit m f then .error .invalidFrame
  else .ok ()

/-- `encode` under a valid mode: every check precedes every byte (R182). -/
def encodeIn (m : Mode) (f : Frame) : Except Status (List Byte) :=
  match checkFrame m f with
  | .ok () => .ok (emit m f)
  | .error st => .error st

/-- `encode(mode, frame)` (R110), which guards the width first. -/
def encodeFrame (c : CandidateMode) (f : Frame) : Except Status (List Byte) :=
  match toMode c with
  | some m => encodeIn m f
  | none => .error .unsupportedWidth

/-- The words of a byte sequence after the header: word `i` is `MemRead(H + i*S, S)`. -/
def readWords (m : Mode) (raw : List Byte) : List Nat :=
  (List.range ((raw.length - headerBytes m) / wordBytes m)).map
    (fun i => memRead raw (headerBytes m + i * wordBytes m) (wordBytes m))

/-- `decode_response` under a valid mode (R140): the length alone decides, and the header bytes are not looked at. -/
def decodeIn (m : Mode) (raw : List Byte) : Except Status (List Nat) :=
  if raw.length < headerBytes m then .error .malformedResponse
  else if (raw.length - headerBytes m) % wordBytes m ≠ 0 then .error .malformedResponse
  else .ok (readWords m raw)

/-- `decode_response(mode, raw)` (R140), which guards the width first. -/
def decodeRaw (c : CandidateMode) (raw : List Byte) : Except Status (List Nat) :=
  match toMode c with
  | some m => decodeIn m raw
  | none => .error .unsupportedWidth

/-- The frame whose header value and words stand in the bytes (R156, before its two malformed checks). -/
def frameOfBytes (m : Mode) (bytes : List Byte) : Frame :=
  let hv := memRead bytes 0 (headerBytes m)
  { address := hv % 2 ^ addressBits m
    isWrite := hv.testBit (8 * headerBytes m - 1)
    isBurst := m.burstCapable && hv.testBit (8 * headerBytes m - 2)
    values := readWords m bytes }

/-- `parse_frame(mode, bytes)` (R156); no result where the bytes are malformed. -/
def parseFrame (m : Mode) (bytes : List Byte) : Option Frame :=
  if bytes.length < headerBytes m + wordBytes m then none
  else if (bytes.length - headerBytes m) % wordBytes m ≠ 0 then none
  else if !burstFlagAgrees (frameOfBytes m bytes) then none
  else some (frameOfBytes m bytes)

end Sys2Proof.Machine
end

