-- ==== Sys2Proof/Machine/Session.lean ====
section
/-! DEFINITION. The three operations of the command port: CONFIGURE (spec/40_configure.md R101), ENCODE
(spec/41_encode.md R111), DECODE_RESPONSE (spec/42_decode_response.md R141). -/

namespace Sys2Proof.Machine

/-- ENCODE of a frame in the state's session (R111): `NoSession` before anything else, then what `encode` answers. The
frame kinds share it, since each is what ENCODE emits for a frame of its kind (spec/41_encode.md section 4). -/
def encodeOperation (f : Frame) (s : State) : State :=
  match s.session with
  | none => raise .noSession s
  | some m => answer ((encodeFrame (candidate m) f).map Result.bytes) s

/-- CONFIGURE (R101): `AlreadyConfigured` is checked first, then the width; only success writes `session`. -/
def execConfigure (c : CandidateMode) (s : State) : Host.Outcome State Fault Refusal :=
  match s.session, toMode c with
  | some _, _ => .next (raise .alreadyConfigured s)
  | none, none => .next (raise .unsupportedWidth s)
  | none, some m => .next (finish .nothing (s.setSession (some m)))

/-- ENCODE (R111). -/
def execEncode (f : Frame) (s : State) : Host.Outcome State Fault Refusal := .next (encodeOperation f s)

/-- DECODE_RESPONSE (R141): `NoSession` first, then what `decode_response` answers. -/
def execDecodeResponse (raw : List Byte) (s : State) : Host.Outcome State Fault Refusal :=
  match s.session with
  | none => .next (raise .noSession s)
  | some m => .next (answer ((decodeRaw (candidate m) raw).map Result.words) s)

end Sys2Proof.Machine
end

