-- ==== Sys2Proof/Machine/FrameKinds.lean ====
section
/-! DEFINITION. The twelve frame kinds (spec/41_encode.md R113 to R116).

A frame kind is the shorthand of spec/30_encoding.md R84: it expands to ENCODE of the frame with that kind's flags, under
the session's mode, and emits what ENCODE emits. In the mode its format belongs to that is the byte table of its rule; in
another session ENCODE decides, as it does for every frame (notes/assumptions/4.md). -/

namespace Sys2Proof.Machine

/-- RD in format S7 (R114). -/
def execRdS7 (a : BitVec 7) (p : Datum) (s : State) : Host.Outcome State Fault Refusal :=
  .next (encodeOperation (singleFrame a.toNat false p) s)

/-- WR in format S7 (R113). -/
def execWrS7 (a : BitVec 7) (v : Datum) (s : State) : Host.Outcome State Fault Refusal :=
  .next (encodeOperation (singleFrame a.toNat true v) s)

/-- RD in format S6B (R114). -/
def execRdS6B (a : BitVec 6) (p : Datum) (s : State) : Host.Outcome State Fault Refusal :=
  .next (encodeOperation (singleFrame a.toNat false p) s)

/-- WR in format S6B (R113). -/
def execWrS6B (a : BitVec 6) (v : Datum) (s : State) : Host.Outcome State Fault Refusal :=
  .next (encodeOperation (singleFrame a.toNat true v) s)

/-- RDB in format S6B (R116). -/
def execRdbS6B (a : BitVec 6) (ps : Payload) (s : State) : Host.Outcome State Fault Refusal :=
  .next (encodeOperation (burstFrame a.toNat false ps) s)

/-- WRB in format S6B (R115). -/
def execWrbS6B (a : BitVec 6) (vs : Payload) (s : State) : Host.Outcome State Fault Refusal :=
  .next (encodeOperation (burstFrame a.toNat true vs) s)

/-- RD in format X15 (R114). -/
def execRdX15 (a : BitVec 15) (p : Datum) (s : State) : Host.Outcome State Fault Refusal :=
  .next (encodeOperation (singleFrame a.toNat false p) s)

/-- WR in format X15 (R113). -/
def execWrX15 (a : BitVec 15) (v : Datum) (s : State) : Host.Outcome State Fault Refusal :=
  .next (encodeOperation (singleFrame a.toNat true v) s)

/-- RD in format X14B (R114). -/
def execRdX14B (a : BitVec 14) (p : Datum) (s : State) : Host.Outcome State Fault Refusal :=
  .next (encodeOperation (singleFrame a.toNat false p) s)

/-- WR in format X14B (R113). -/
def execWrX14B (a : BitVec 14) (v : Datum) (s : State) : Host.Outcome State Fault Refusal :=
  .next (encodeOperation (singleFrame a.toNat true v) s)

/-- RDB in format X14B (R116). -/
def execRdbX14B (a : BitVec 14) (ps : Payload) (s : State) : Host.Outcome State Fault Refusal :=
  .next (encodeOperation (burstFrame a.toNat false ps) s)

/-- WRB in format X14B (R115). -/
def execWrbX14B (a : BitVec 14) (vs : Payload) (s : State) : Host.Outcome State Fault Refusal :=
  .next (encodeOperation (burstFrame a.toNat true vs) s)

end Sys2Proof.Machine
end

