-- ==== Sys2Proof/Machine/Dispatch.lean ====
section
/-! DEFINITION. One arm for each instruction. -/

namespace Sys2Proof.Machine

def exec (i : Instr) (s : State) : Host.Outcome State Fault Refusal :=
  match i with
  | .rdS7 a p => Sys2Proof.Machine.execRdS7 a p s
  | .wrS7 a v => Sys2Proof.Machine.execWrS7 a v s
  | .rdS6B a p => Sys2Proof.Machine.execRdS6B a p s
  | .wrS6B a v => Sys2Proof.Machine.execWrS6B a v s
  | .rdbS6B a ps => Sys2Proof.Machine.execRdbS6B a ps s
  | .wrbS6B a vs => Sys2Proof.Machine.execWrbS6B a vs s
  | .rdX15 a p => Sys2Proof.Machine.execRdX15 a p s
  | .wrX15 a v => Sys2Proof.Machine.execWrX15 a v s
  | .rdX14B a p => Sys2Proof.Machine.execRdX14B a p s
  | .wrX14B a v => Sys2Proof.Machine.execWrX14B a v s
  | .rdbX14B a ps => Sys2Proof.Machine.execRdbX14B a ps s
  | .wrbX14B a vs => Sys2Proof.Machine.execWrbX14B a vs s
  | .configure c => Sys2Proof.Machine.execConfigure c s
  | .encode f => Sys2Proof.Machine.execEncode f s
  | .decodeResponse raw => Sys2Proof.Machine.execDecodeResponse raw s

end Sys2Proof.Machine
end

