-- ==== Sys2Proof/Machine/Step.lean ====
section
/-! DEFINITION. One step: the reset event, one operation, or nothing (spec/20_memory.md R51, spec/60_exceptions.md R185). -/

namespace Sys2Proof.Machine

/-- Take what the user offers next. A reset event resets the block (R200); an offer that decodes to an instruction under the
session performs it; any other offer is rejected; with nothing offered nothing happens. -/
def step (s : State) : Host.Outcome State Fault Refusal :=
  match takeInput s with
  | none => .next (idle s)
  | some (.reset, s') => .next (resetBlock s')
  | some (.offer o, s') =>
    match decode s'.session o with
    | .ok i => exec i s'
    | .error e => reject e s'

/-- `s` with a word of the opcode table as the very next thing it fetches (notes/assumptions/8.md, 9.md). -/
def State.withFetchWord (s : State) (nbits w : Nat) : State := offerTableWord s nbits w

end Sys2Proof.Machine
end

