-- ==== Sys2Proof/Config.lean ====
section
/-! DEFINITION. The open parameters of spec/00_scope.md R7 that a definition of the model names.

`DEVICE` is an argument of `Machine.transfer`; `MAX_WORDS` is left unbounded (notes/assumptions/11.md); `SPI_BIT_ORDER`,
`SPI_MODE` and `FRAME_SPACING` are outside the block and change no value. -/

namespace Sys2Proof

/-- `PLACEHOLDER` (R7, R84; decision D13, OPEN): the word the shorthands `RD` and `RDB` put in a read frame. It has no
body, so what is proved of a shorthand holds for every placeholder (notes/assumptions/12.md). -/
opaque Config.placeholder (w : WordWidth) : BitVec w.bits

end Sys2Proof
end

