-- ==== Sys2Proof/Machine/Meaning.lean ====
section
/-! DEFINITION. What a frame stands for on the bus side of the bridge (spec/43_frame_meaning_and_laws.md section 2).

The block never accesses the target address space (spec/20_memory.md R43): these are functions of a frame, given so that its
bytes have a meaning. -/

namespace Sys2Proof.Machine

/-- One observed bus access (R150): `we` true for a write, with `data` the word written, false for a read, with `data` the
word read. The address is a natural number, never reduced modulo `2^AW` (R152). -/
structure BusTransaction where
  adr : Nat
  data : Nat
  we : Bool
deriving DecidableEq, Repr

/-- The words of the transactions: the frame's own for a write, the first `N` words read back for a read (R151, R153). -/
def transferredWords (f : Frame) (readBack : List Nat) : List Nat :=
  if f.isWrite then f.values else readBack.take (wordCount f)

/-- `expand(frame)` (R151): one transaction per word, in order, at addresses `A, A+1, ...`; the step is 1 for both word widths
(R43) and there is no wrap (R152). -/
def expand (f : Frame) (readBack : List Nat) : List BusTransaction :=
  (transferredWords f readBack).zipIdx.map (fun (d, i) => ⟨f.address + i, d, f.isWrite⟩)

/-- The transactions the bytes on the wire stand for under a mode (R156, R160), with the words read back if they are a read
frame; none if they are no frame. -/
def meaningOf (m : Mode) (bytes : List Byte) (readBack : List Nat) : Option (List BusTransaction) :=
  (parseFrame m bytes).map (fun f => expand f readBack)

/-- The expansion of a sequence of frames, each with the words read back in it: the concatenation of the expansions, in
transfer order (R151, R52). -/
def expandAll (fs : List (Frame × List Nat)) : List BusTransaction :=
  fs.flatMap (fun (f, readBack) => expand f readBack)

/-- The whole frame lies inside the target address space (R160, R211): a frame that does not has no realisation on any bus
(R152). -/
def insideSpace (m : Mode) (f : Frame) : Bool := decide (f.address + wordCount f ≤ 2 ^ addressBits m)

end Sys2Proof.Machine
end

