-- ==== Sys2Proof/Machine/Transfer.lean ====
section
/-! DEFINITION. The transfer composite and the two reference devices (spec/43_frame_meaning_and_laws.md R154, R155).

All of it is outside the block and no step calls it. `transfer` takes the far end, the open parameter `DEVICE` of
spec/00_scope.md R7, as an argument; the mirror and the memory device are test scaffolding and describe no bridge. -/

namespace Sys2Proof.Machine

/-- A far end with its own state: what chip-select assertion and deassertion do to it, and what it answers to one byte, or no
answer where the exchange fails with `TransportError` (R154, R180). -/
structure Device (σ : Type) where
  select : σ → σ
  exchange : σ → Byte → σ × Option Byte
  deselect : σ → σ

/-- How a transfer ends: with a status of the codec, with the transport's own error, or with words. -/
inductive TransferEnd where
  | status (st : Status)
  | transportError
  | words (ws : List Nat)
deriving DecidableEq, Repr

/-- Exchange the bytes in index order, one response byte for each (R42, R205); the first failure ends it (R154). -/
def exchangeAll {σ : Type} (D : Device σ) (d : σ) : List Byte → σ × Option (List Byte)
  | [] => (d, some [])
  | b :: rest =>
    match D.exchange d b with
    | (d', none) => (d', none)
    | (d', some r) =>
      match exchangeAll D d' rest with
      | (d'', some rs) => (d'', some (r :: rs))
      | (d'', none) => (d'', none)

/-- `transfer(mode, frame)` (R154): encode, exchange every byte inside one chip-select assertion, decode the response. A codec
error sends no byte; a transport error is surfaced unchanged and not retried. -/
def transfer {σ : Type} (D : Device σ) (d : σ) (c : CandidateMode) (f : Frame) : σ × TransferEnd :=
  match encodeFrame c f with
  | .error st => (d, .status st)
  | .ok out =>
    match exchangeAll D (D.select d) out with
    | (d', none) => (d', .transportError)
    | (d', some raw) =>
      match decodeRaw c raw with
      | .error st => (D.deselect d', .status st)
      | .ok ws => (D.deselect d', .words ws)

/-- Successive transfers, in the order the user issues them (R51): the far end's last state and how each transfer made ended. One
frame at a time (R204): a transfer that completes has sent its whole frame and deasserted chip-select before the next begins, one whose
frame ENCODE refuses has sent nothing, and a transport error, which leaves a frame unfinished, aborts the sequence (R184), so that no
byte of a later frame follows. DESIGN CHOICE (notes/assumptions/18.md): after a status the sequence goes on, where R183 also lets a
scenario stop. -/
def transferAll {σ : Type} (D : Device σ) (d : σ) (c : CandidateMode) : List Frame → σ × List TransferEnd
  | [] => (d, [])
  | f :: fs =>
    let r := transfer D d c f
    if r.2 = .transportError then (r.1, [.transportError])
    else
      let rs := transferAll D r.1 c fs
      (rs.1, r.2 :: rs.2)

/-- What happens on the link: chip-select is asserted, one byte is sent, chip-select is deasserted. -/
inductive LinkEvent where
  | assertSelect
  | send (b : Byte)
  | deassertSelect
deriving DecidableEq, Repr

/-- A far end with a record of what happens on the link, oldest first; it answers as the far end does. -/
def traced {σ : Type} (D : Device σ) : Device (σ × List LinkEvent) :=
  ⟨fun d => (D.select d.1, d.2 ++ [.assertSelect]),
   fun d b => (((D.exchange d.1 b).1, d.2 ++ [.send b]), (D.exchange d.1 b).2),
   fun d => (D.deselect d.1, d.2 ++ [.deassertSelect])⟩

/-- The link events of one whole frame (R204, R205): every byte of `out` in index order inside one chip-select assertion; none where
ENCODE refuses the frame. -/
def frameEvents (c : CandidateMode) (f : Frame) : List LinkEvent :=
  match encodeFrame c f with
  | .error _ => []
  | .ok out => .assertSelect :: out.map .send ++ [.deassertSelect]

/-- A conformant bridge (R160): from a valid far-end state, a completed transfer of a frame that is well formed and inside the
target address space leaves a valid one, and the bus shows exactly the expansion of the frame more than before, for a read with
the words the transfer returned (R153). It is a requirement on the far end, not a property of the block. DESIGN CHOICE
(notes/assumptions/19.md): the settle delay, by which R53 and R208 let appends to the log lag the transfer and whose length they leave
open, is taken as none: the whole expansion stands in the log when the transfer ends. -/
def Conformant {σ : Type} (D : Device σ) (m : Mode) (valid : σ → Prop) (busLog : σ → List BusTransaction) : Prop :=
  ∀ (d : σ) (f : Frame) (ws : List Nat), valid d → wellFormedFrame m f = true → insideSpace m f = true →
    (transfer D d (candidate m) f).2 = .words ws →
    valid (transfer D d (candidate m) f).1 ∧ busLog (transfer D d (candidate m) f).1 = busLog d ++ expand f ws

/-! ## The mirror device (R155) -/

/-- It answers every byte with the same byte. -/
def mirrorDevice : Device Unit := ⟨id, fun _ b => ((), some b), id⟩

/-! ## A word memory in canonical form

The one memory the spec describes is the memory device's (R155): addresses strictly rising, and no entry equal to what an
unlisted address reads as, which is 0 (spec/95_test_vectors.md section 3). -/

/-- What an address that nothing has written reads as (spec/95_test_vectors.md section 3). -/
def unwrittenWord : Nat := 0

def memoryRead (mem : List (Nat × Nat)) (a : Nat) : Nat :=
  match mem with
  | [] => unwrittenWord
  | (b, v) :: rest => if a = b then v else memoryRead rest a

/-- Put one entry in its place, or take it out when the word is what an unlisted address reads as. -/
def memoryWrite (mem : List (Nat × Nat)) (a v : Nat) : List (Nat × Nat) :=
  match mem with
  | [] => if v = unwrittenWord then [] else [(a, v)]
  | (b, w) :: rest =>
    if a < b then (if v = unwrittenWord then (b, w) :: rest else (a, v) :: (b, w) :: rest)
    else if a = b then (if v = unwrittenWord then rest else (a, v) :: rest)
    else (b, w) :: memoryWrite rest a v

/-- `v_i` to address `A + i`, for `i = 0 .. N-1` in order. -/
def memoryWriteAll (mem : List (Nat × Nat)) (a : Nat) : List Nat → List (Nat × Nat)
  | [] => mem
  | v :: vs => memoryWriteAll (memoryWrite mem a v) (a + 1) vs

/-- The canonical form of a word memory. -/
def Memory.wf : List (Nat × Nat) → Bool
  | [] => true
  | [(_, v)] => v != unwrittenWord
  | (a, v) :: (b, w) :: rest => decide (a < b) && v != unwrittenWord && Memory.wf ((b, w) :: rest)

/-- Every word of a word memory is a word of the mode's width. -/
def Memory.fits (m : Mode) (mem : List (Nat × Nat)) : Bool := mem.all (fun e => decide (e.2 < 2 ^ wordBits m))

/-! ## The memory device (R155) -/

/-- The memory device's state: its mode, its memory, the bytes received since chip-select was asserted, and the bus
transactions it has performed. -/
structure MemoryDevice where
  mode : Mode
  mem : List (Nat × Nat)
  received : List Byte
  log : List BusTransaction
deriving DecidableEq, Repr

def MemoryDevice.start (m : Mode) : MemoryDevice := ⟨m, [], [], []⟩

/-- The byte it drives while byte `k` of the frame is being sent: 0 during the header and during a write frame; byte `j` of
`be(S, mem[A + i])` during payload byte `H + i*S + j` of a read frame. -/
def memoryDrive (d : MemoryDevice) : Byte :=
  let k := d.received.length
  let hd := frameOfBytes d.mode d.received
  if k < headerBytes d.mode ∨ hd.isWrite then 0#8
  else
    let n := k - headerBytes d.mode
    let word := memoryRead d.mem (hd.address + n / wordBytes d.mode)
    (be (wordBytes d.mode) word).getD (n % wordBytes d.mode) 0#8

/-- At chip-select deassertion it parses what it received and performs the frame's transactions; bytes that are no frame
change nothing. -/
def memoryCommit (d : MemoryDevice) : MemoryDevice :=
  match parseFrame d.mode d.received with
  | none => { d with received := [] }
  | some f =>
    { d with
      received := []
      mem := if f.isWrite then memoryWriteAll d.mem f.address f.values else d.mem
      log := d.log ++ expand f ((List.range (wordCount f)).map (fun i => memoryRead d.mem (f.address + i))) }

def memoryDevice : Device MemoryDevice :=
  ⟨fun d => { d with received := [] },
   fun d b => ({ d with received := d.received ++ [b] }, some (memoryDrive d)),
   memoryCommit⟩

end Sys2Proof.Machine
end

