-- ==== Sys2Proof/Machine/Shorthand.lean ====
section
/-! DEFINITION. The textual notation and the pseudo-operations of spec/30_encoding.md R83 and R84, as the inputs they stand
for. They have no semantic content of their own (decision D20). -/

namespace Sys2Proof.Machine

/-- The line `RESET` (R83). -/
def lineReset : Input := .reset

/-- The line `CFG ext=.. burst=.. width=..` (R83). -/
def lineCfg (ext burst : Bool) (width : Nat) : Input := .offer (encode (.configure ⟨ext, burst, width⟩))

/-- The line `ENC addr=.. w=.. b=.. vals=[..]` (R83): exactly those four fields, nothing derived. -/
def lineEnc (addr : Nat) (w b : Bool) (vals : List Nat) : Input := .offer (encode (.encode ⟨addr, w, b, vals⟩))

/-- The line `DEC [..]` (R83). -/
def lineDec (raw : List Byte) : Input := .offer (encode (.decodeResponse raw))

/-- `PLACEHOLDER` as a word of the mode's width (R84). -/
def placeholderWord (m : Mode) : Nat := (Config.placeholder m.wordWidth).toNat

/-- `WR <a>, <v>` (R84). -/
def frameWR (a v : Nat) : Frame := ⟨a, true, false, [v]⟩

/-- `RD <a>` (R84). -/
def frameRD (m : Mode) (a : Nat) : Frame := ⟨a, false, false, [placeholderWord m]⟩

/-- `WRB <a>, [v0, .., vn]` (R84). -/
def frameWRB (a : Nat) (vs : List Nat) : Frame := ⟨a, true, true, vs⟩

/-- `RDB <a>, n=<N>` (R84). -/
def frameRDB (m : Mode) (a n : Nat) : Frame := ⟨a, false, true, List.replicate n (placeholderWord m)⟩

/-- `mkframe(a, w, vals)` (R84): the burst flag comes from the word count. -/
def mkFrame (a : Nat) (w : Bool) (vals : List Nat) : Frame := ⟨a, w, decide (1 < vals.length), vals⟩

/-- `XFER <frame>` (R84, R154) as the user performs it on the block: ENCODE, then, with the answers of the far end to every byte
of `out`, DECODE_RESPONSE. A frame that ENCODE refuses, or a transport error, ends it after ENCODE. -/
def linesXfer {σ : Type} (D : Device σ) (d : σ) (m : Mode) (f : Frame) : List Input :=
  let enc := lineEnc f.address f.isWrite f.isBurst f.values
  match encodeFrame (candidate m) f with
  | .error _ => [enc]
  | .ok out =>
    match (exchangeAll D (D.select d) out).2 with
    | none => [enc]
    | some raw => [enc, lineDec raw]

end Sys2Proof.Machine
end

