-- ==== Sys2Proof/Safety.lean ====
section
/-! DEFINITION. What counts as a sound state: the response port shows only what the session in force justifies. -/

namespace Sys2Proof.Machine

/-- The statuses an instruction can end with, the column "raised by" of R171; a frame kind is an ENCODE (R84). -/
def statusesOf : Instr → List Status
  | .configure _ => [.ok, .unsupportedWidth, .alreadyConfigured]
  | .decodeResponse _ => [.ok, .malformedResponse, .noSession]
  | .encode _ | .rdS7 _ _ | .wrS7 _ _ | .rdS6B _ _ | .wrS6B _ _ | .rdbS6B _ _ | .wrbS6B _ _ | .rdX15 _ _ | .wrX15 _ _
  | .rdX14B _ _ | .wrX14B _ _ | .rdbX14B _ _ | .wrbX14B _ _ =>
    [.ok, .burstNotSupported, .addressOutOfRange, .invalidFrame, .noSession]

/-- The result, if there is one, is what an operation can return in this session: `out` is a frame of the session's mode
(spec/30_encoding.md R81, spec/43_frame_meaning_and_laws.md R158), `words` are below `2^W` (spec/42_decode_response.md R143). -/
def resultSound (session : Option Mode) (r : Result) : Bool :=
  match session, r with
  | none, _ => false
  | some _, .nothing => true
  | some m, .bytes out => (parseFrame m out).isSome
  | some m, .words ws => ws.all (fun w => decide (w < 2 ^ wordBits m))

/-- The status is one that can be raised in this session (spec/60_exceptions.md R172 to R179), and a result is present exactly
with `OK` (R170, R24). -/
def responseSound (session : Option Mode) (r : Response) : Bool :=
  match r.status, r.result with
  | .ok, some x => resultSound session x
  | .ok, none => false
  | _, some _ => false
  | .unsupportedWidth, none => session.isNone
  | .noSession, none => session.isNone
  | .alreadyConfigured, none => session.isSome
  | .burstNotSupported, none => session.any (fun m => !m.burstCapable)
  | .addressOutOfRange, none => session.isSome
  | .invalidFrame, none => session.isSome
  | .malformedResponse, none => session.isSome
  | .illegalOperation, none => true

/-- The invariant of the machine: the response port is empty or sound for the session in force. -/
def State.sound (s : State) : Bool := s.response.all (responseSound s.session)

end Sys2Proof.Machine
end

