-- ==== Sys2Proof/Certificates/Slice0/Obligations.lean ====
section
/-! DEFINITION. The statements about the machine, for the provers.

Each comes from a numbered rule of spec/ and names it. Where a clause rests on a decision of the model, the docstring names the
log entry. A completed operation is written as the whole next state, so each such statement is also its frame: what the record
update does not name is unchanged. -/

open Sys2Proof Sys2Proof.Machine

/-! ## Reset and the session -/

/-- R29, R201. What reset leaves, as the start state and as an event: no session, no operand latched, no result present; what
the user offers after the event is not the block's and stays (log 1). -/
def Obligations.ResetLeavesNoSessionAndNoResult : Prop :=
  State.reset.session = none ∧ State.reset.response = none ∧ State.reset.inputs = [] ∧
  ∀ (s : State) (rest : List Input), s.inputs = .reset :: rest →
    step s = .next { s with session := none, response := none, inputs := rest }

/-- Resting on R200: a reset makes the session absent whatever the block held, leaves the block as one that was never configured, and
the next CONFIGURE with a valid mode succeeds. That the offers waiting behind the reset are kept, which the two clauses on `inputs`
say, is the model's choice (log 1). -/
def Obligations.ResetThenConfigureSucceeds : Prop :=
  ∀ (s : State) (c : CandidateMode) (rest : List Input),
    s.inputs = .reset :: .offer (encode (.configure c)) :: rest →
    (c.wordWidth = 8 ∨ c.wordWidth = 16) →
    ∃ (t u : State) (m : Mode), step s = .next t ∧ t.session = none ∧
      t = { State.reset with inputs := .offer (encode (.configure c)) :: rest } ∧
      step t = .next u ∧ u.session = some m ∧ u.response = some ⟨.ok, some .nothing⟩ ∧ u.inputs = rest ∧
      m.extendedAddress = c.extendedAddress ∧ m.burstCapable = c.burstCapable ∧ m.wordWidth.bits = c.wordWidth

/-- R101. CONFIGURE: `AlreadyConfigured` in a session, whatever the candidate; else `UnsupportedWidth` unless the width is 8 or
16; else the mode is latched. Nothing but `session`, on success, and the response is written. Its op code is 0. -/
def Obligations.ConfigureLatchesTheModeOnce : Prop :=
  ∀ (c : CandidateMode) (s : State),
    (s.session ≠ none →
      exec (.configure c) s = .next { s with response := some ⟨.alreadyConfigured, none⟩ }) ∧
    (s.session = none → c.wordWidth ≠ 8 → c.wordWidth ≠ 16 →
      exec (.configure c) s = .next { s with response := some ⟨.unsupportedWidth, none⟩ }) ∧
    (s.session = none → c.wordWidth = 8 →
      exec (.configure c) s = .next
        { s with session := some ⟨c.extendedAddress, c.burstCapable, .w8⟩, response := some ⟨.ok, some .nothing⟩ }) ∧
    (s.session = none → c.wordWidth = 16 →
      exec (.configure c) s = .next
        { s with session := some ⟨c.extendedAddress, c.burstCapable, .w16⟩, response := some ⟨.ok, some .nothing⟩ }) ∧
    (∀ x : Operand, decode s.session (.command 0#2 x) = .ok (.configure x.mode))

/-- R102. In any step the session keeps its value, or the reset event made it absent, or a CONFIGURE put its own operand there;
CONFIGURE reads nothing but the session and its operand, and produces no bytes and no words. -/
def Obligations.OnlyConfigureBringsInAMode : Prop :=
  (∀ s t : State, step s = .next t →
    t.session = s.session ∨
    (t.session = none ∧ ∃ rest, s.inputs = .reset :: rest) ∨
    (∃ (x : Operand) (rest : List Input) (m : Mode), s.inputs = .offer (.command 0#2 x) :: rest ∧ s.session = none ∧
      t.session = some m ∧ candidate m = x.mode)) ∧
  (∀ (c : CandidateMode) (s t : State), exec (.configure c) s = .next t →
    ∀ r, t.response = some r → r.result = none ∨ r.result = some .nothing) ∧
  (∀ (c : CandidateMode) (s s' t t' : State), s.session = s'.session → exec (.configure c) s = .next t →
    exec (.configure c) s' = .next t' → t.session = t'.session ∧ t.response = t'.response)

/-- R103, R203. No operation ends or changes a session: whatever number of steps runs with no reset among the inputs, the session
is still the one it was; a reset ends it. -/
def Obligations.SessionHoldsUntilReset : Prop :=
  (∀ (n : Nat) (s t : State) (m : Mode), s.session = some m → Input.reset ∉ s.inputs →
    core.run n s = .next t → t.session = some m) ∧
  (∀ (s : State) (rest : List Input), s.inputs = .reset :: rest → ∃ t, step s = .next t ∧ t.session = none)

/-- Resting on R177, which names ENCODE and DECODE_RESPONSE: without a session every instruction but CONFIGURE ends with `NoSession`,
before any other check and whatever its operand, and changes nothing else. That the twelve frame kinds do so too, each being an ENCODE
(R84), is the model's choice (log 4). -/
def Obligations.WithoutASessionOnlyConfigureRuns : Prop :=
  ∀ (i : Instr) (s : State), s.session = none → (∀ c, i ≠ .configure c) →
    exec i s = .next { s with response := some ⟨.noSession, none⟩ }

/-! ## The mode's constants and byte sequences -/

/-- R22. The constants of the four header formats and the two word widths; all eight combinations are held by a session. -/
def Obligations.ModeConstantsAreTheTable : Prop :=
  ∀ w : WordWidth,
    (∀ e b : Bool, toMode ⟨e, b, w.bits⟩ = some ⟨e, b, w⟩) ∧
    (∀ e b : Bool, wordBytes ⟨e, b, w⟩ = match w with | .w8 => 1 | .w16 => 2) ∧
    (∀ e b : Bool, wordBits ⟨e, b, w⟩ = (match w with | .w8 => 8 | .w16 => 16) ∧ flagBits ⟨e, b, w⟩ = if b then 2 else 1) ∧
    (headerBytes ⟨false, false, w⟩ = 1 ∧ addressBits ⟨false, false, w⟩ = 7 ∧ addressMask ⟨false, false, w⟩ = 0x7F ∧
      writeBit ⟨false, false, w⟩ = 0x80 ∧ burstBit ⟨false, false, w⟩ = none) ∧
    (headerBytes ⟨false, true, w⟩ = 1 ∧ addressBits ⟨false, true, w⟩ = 6 ∧ addressMask ⟨false, true, w⟩ = 0x3F ∧
      writeBit ⟨false, true, w⟩ = 0x80 ∧ burstBit ⟨false, true, w⟩ = some 0x40) ∧
    (headerBytes ⟨true, false, w⟩ = 2 ∧ addressBits ⟨true, false, w⟩ = 15 ∧ addressMask ⟨true, false, w⟩ = 0x7FFF ∧
      writeBit ⟨true, false, w⟩ = 0x8000 ∧ burstBit ⟨true, false, w⟩ = none) ∧
    (headerBytes ⟨true, true, w⟩ = 2 ∧ addressBits ⟨true, true, w⟩ = 14 ∧ addressMask ⟨true, true, w⟩ = 0x3FFF ∧
      writeBit ⟨true, true, w⟩ = 0x8000 ∧ burstBit ⟨true, true, w⟩ = some 0x4000)

/-- R45. `MemWrite` lays a value down big-endian after what is already written; `MemRead` there gives it back, whatever stands
after it; and two 1-byte reads of a 16-bit value see its high byte, then its low byte. -/
def Obligations.BigEndianReadGivesBackWrite : Prop :=
  (∀ (out post : List Byte) (n v : Nat), n = 1 ∨ n = 2 → v < 2 ^ (8 * n) →
    memRead (memWrite out n v ++ post) out.length n = v) ∧
  (∀ (out : List Byte) (v : Nat), v < 2 ^ 8 → memWrite out 1 v = out ++ [BitVec.ofNat 8 v]) ∧
  (∀ (out : List Byte) (v : Nat), v < 2 ^ 16 →
    memWrite out 2 v = out ++ [BitVec.ofNat 8 (v / 256), BitVec.ofNat 8 (v % 256)]) ∧
  (∀ (out post : List Byte) (v : Nat), v < 2 ^ 16 →
    memRead (memWrite out 2 v ++ post) out.length 1 = v / 256 ∧
    memRead (memWrite out 2 v ++ post) (out.length + 1) 1 = v % 256)

/-! ## ENCODE -/

/-- R111. ENCODE, op code 1: `NoSession` before anything else; in a session, what the pure function answers under the latched mode,
which is never `UnsupportedWidth`; nothing but the response is written. -/
def Obligations.EncodeIsThePureFunctionUnderTheSession : Prop :=
  ∀ (f : Frame) (s : State),
    (s.session = none → exec (.encode f) s = .next { s with response := some ⟨.noSession, none⟩ }) ∧
    (∀ m, s.session = some m →
      (∀ out, encodeFrame (candidate m) f = .ok out →
        exec (.encode f) s = .next { s with response := some ⟨.ok, some (.bytes out)⟩ }) ∧
      (∀ st, encodeFrame (candidate m) f = .error st → st ≠ .unsupportedWidth ∧
        exec (.encode f) s = .next { s with response := some ⟨st, none⟩ })) ∧
    (∀ x : Operand, decode s.session (.command 1#2 x) = .ok (.encode x.frame))

/-- R112. ENCODE answers bytes exactly on the frames well formed for the session's mode. -/
def Obligations.EncodeAnswersBytesExactlyOnWellFormedFrames : Prop :=
  ∀ (m : Mode) (f : Frame) (s : State), s.session = some m →
    ((∃ out, exec (.encode f) s = .next { s with response := some ⟨.ok, some (.bytes out)⟩ }) ↔
      (1 ≤ f.values.length ∧ (f.isBurst = true ↔ 1 < f.values.length) ∧
        (m.burstCapable = true ∨ f.values.length = 1) ∧ f.address < 2 ^ addressBits m ∧
        ∀ v ∈ f.values, v < 2 ^ wordBits m))

/-- R173, R174, R176, in the order of R181. The first of the three encoding errors that applies is the status; the session
stands and nothing is sent. -/
def Obligations.EncodeRaisesTheFirstErrorThatApplies : Prop :=
  ∀ (m : Mode) (f : Frame) (s : State), s.session = some m →
    let cannotBurst := m.burstCapable = false ∧ (f.isBurst = true ∨ 1 < f.values.length)
    let outOfRange := 2 ^ addressBits m ≤ f.address
    let breaksModel := f.values.length = 0 ∨ ¬(f.isBurst = true ↔ 1 < f.values.length) ∨
      ∃ v ∈ f.values, 2 ^ wordBits m ≤ v
    (cannotBurst → exec (.encode f) s = .next { s with response := some ⟨.burstNotSupported, none⟩ }) ∧
    (¬cannotBurst → outOfRange → exec (.encode f) s = .next { s with response := some ⟨.addressOutOfRange, none⟩ }) ∧
    (¬cannotBurst → ¬outOfRange → breaksModel →
      exec (.encode f) s = .next { s with response := some ⟨.invalidFrame, none⟩ })

/-- R70. What ENCODE emits for a well-formed frame is the header, with the address and the two flags as disjoint terms, then each
word, all most significant byte first, and nothing else: `H + N*S` bytes. -/
def Obligations.EncodeEmitsHeaderThenWords : Prop :=
  ∀ (m : Mode) (f : Frame) (s : State), s.session = some m → wellFormedFrame m f = true →
    ∃ out, exec (.encode f) s = .next { s with response := some ⟨.ok, some (.bytes out)⟩ } ∧
      out = be (headerBytes m)
          (f.address + (if f.isWrite then 2 ^ (8 * headerBytes m - 1) else 0)
            + (if f.isBurst then 2 ^ (8 * headerBytes m - 2) else 0))
        ++ f.values.flatMap (be (wordBytes m)) ∧
      out.length = headerBytes m + f.values.length * wordBytes m

/-- R119. Bit 7 of the first byte is the write flag; bit 6 is the burst flag in the burst-capable formats and the top address bit
in the other two. -/
def Obligations.FlagsStandInTheFirstByte : Prop :=
  ∀ (m : Mode) (f : Frame) (s : State), s.session = some m → wellFormedFrame m f = true →
    ∃ b0 rest, exec (.encode f) s = .next { s with response := some ⟨.ok, some (.bytes (b0 :: rest))⟩ } ∧
      b0.getLsbD 7 = f.isWrite ∧
      (m.burstCapable = true → b0.getLsbD 6 = f.isBurst) ∧
      (m.burstCapable = false → b0.getLsbD 6 = f.address.testBit (addressBits m - 1))

/-- R120. Word `i` takes the `S` bytes from `H + i*S` on, most significant first. -/
def Obligations.EveryWordTakesItsOwnBytes : Prop :=
  ∀ (m : Mode) (f : Frame) (s : State), s.session = some m → wellFormedFrame m f = true →
    ∃ out, exec (.encode f) s = .next { s with response := some ⟨.ok, some (.bytes out)⟩ } ∧
      ∀ (i v : Nat), f.values[i]? = some v →
        (out.drop (headerBytes m + i * wordBytes m)).take (wordBytes m) =
          match m.wordWidth with
          | .w8 => [BitVec.ofNat 8 v]
          | .w16 => [BitVec.ofNat 8 (v / 256), BitVec.ofNat 8 (v % 256)]

/-- R121. In a mode that cannot burst, more than one value is `BurstNotSupported` whatever else the frame holds, and no byte
exists. -/
def Obligations.CountIsEnforcedWithoutBurst : Prop :=
  ∀ (m : Mode) (f : Frame) (s : State), m.burstCapable = false → 1 < f.values.length →
    encodeFrame (candidate m) f = .error .burstNotSupported ∧
    (s.session = some m →
      exec (.encode f) s = .next { s with response := some ⟨.burstNotSupported, none⟩ })

/-- R172. A width other than 8 and 16 is `UnsupportedWidth` for both pure functions, before every other check; through the block
only CONFIGURE can raise it. -/
def Obligations.UnsupportedWidthIsGuarded : Prop :=
  (∀ (c : CandidateMode) (f : Frame) (raw : List Byte), c.wordWidth ≠ 8 → c.wordWidth ≠ 16 →
    encodeFrame c f = .error .unsupportedWidth ∧ decodeRaw c raw = .error .unsupportedWidth) ∧
  (∀ (c : CandidateMode) (s : State), s.session = none → c.wordWidth ≠ 8 → c.wordWidth ≠ 16 →
    exec (.configure c) s = .next { s with response := some ⟨.unsupportedWidth, none⟩ }) ∧
  (∀ (i : Instr) (s t : State), exec i s = .next t → (∃ r, t.response = some ⟨.unsupportedWidth, r⟩) →
    ∃ c, i = .configure c)

/-- R81. Every header value of every format is the header of some frame ENCODE accepts: no pattern is reserved. -/
def Obligations.EveryHeaderPatternIsUsed : Prop :=
  ∀ (m : Mode) (hv : Nat), hv < 2 ^ (8 * headerBytes m) →
    ∃ (f : Frame) (out : List Byte), encodeFrame (candidate m) f = .ok out ∧
      out.take (headerBytes m) = be (headerBytes m) hv

/-- R81, the table of what ENCODE never emits: a header without a word, a partial word, a burst flag that disagrees with the
word count. -/
def Obligations.EncodeNeverEmitsAMalformedFrame : Prop :=
  ∀ (m : Mode) (f : Frame) (out : List Byte), encodeFrame (candidate m) f = .ok out →
    headerBytes m + wordBytes m ≤ out.length ∧
    (out.length - headerBytes m) % wordBytes m = 0 ∧
    ∃ b0 rest, out = b0 :: rest ∧
      (m.burstCapable = true → (b0.getLsbD 6 = true ↔ 1 < (out.length - headerBytes m) / wordBytes m)) ∧
      (m.burstCapable = false → (out.length - headerBytes m) / wordBytes m = 1)

/-! ## The frame kinds -/

/-- R113. WR in its four formats and both widths: in the mode of its format it emits the bytes of the rule's table and stands for
one bus write. -/
def Obligations.SingleWriteEmitsItsBytes : Prop :=
  (∀ (a : BitVec 7) (v : Datum) (s : State), s.session = some ⟨false, false, v.width⟩ →
    ∃ out, exec (.wrS7 a v) s = .next { s with response := some ⟨.ok, some (.bytes out)⟩ } ∧
      out = [BitVec.ofNat 8 (0x80 + a.toNat)] ++ be (v.width.bits / 8) v.value ∧
      meaningOf ⟨false, false, v.width⟩ out [] = some [⟨a.toNat, v.value, true⟩]) ∧
  (∀ (a : BitVec 6) (v : Datum) (s : State), s.session = some ⟨false, true, v.width⟩ →
    ∃ out, exec (.wrS6B a v) s = .next { s with response := some ⟨.ok, some (.bytes out)⟩ } ∧
      out = [BitVec.ofNat 8 (0x80 + a.toNat)] ++ be (v.width.bits / 8) v.value ∧
      meaningOf ⟨false, true, v.width⟩ out [] = some [⟨a.toNat, v.value, true⟩]) ∧
  (∀ (a : BitVec 15) (v : Datum) (s : State), s.session = some ⟨true, false, v.width⟩ →
    ∃ out, exec (.wrX15 a v) s = .next { s with response := some ⟨.ok, some (.bytes out)⟩ } ∧
      out = [BitVec.ofNat 8 (0x80 + a.toNat / 256), BitVec.ofNat 8 (a.toNat % 256)] ++ be (v.width.bits / 8) v.value ∧
      meaningOf ⟨true, false, v.width⟩ out [] = some [⟨a.toNat, v.value, true⟩]) ∧
  (∀ (a : BitVec 14) (v : Datum) (s : State), s.session = some ⟨true, true, v.width⟩ →
    ∃ out, exec (.wrX14B a v) s = .next { s with response := some ⟨.ok, some (.bytes out)⟩ } ∧
      out = [BitVec.ofNat 8 (0x80 + a.toNat / 256), BitVec.ofNat 8 (a.toNat % 256)] ++ be (v.width.bits / 8) v.value ∧
      meaningOf ⟨true, true, v.width⟩ out [] = some [⟨a.toNat, v.value, true⟩])

/-- R114. RD in its four formats and both widths: in the mode of its format it emits the address with bit 7 of byte 0 clear, then
the placeholder verbatim, and stands for one bus read, whose word is the one read back; DECODE_RESPONSE recovers a word that
stands after the header in the response. -/
def Obligations.SingleReadEmitsItsBytes : Prop :=
  (∀ (a : BitVec 7) (p : Datum) (s : State) (w : Nat), s.session = some ⟨false, false, p.width⟩ →
    ∃ out, exec (.rdS7 a p) s = .next { s with response := some ⟨.ok, some (.bytes out)⟩ } ∧
      out = [BitVec.ofNat 8 a.toNat] ++ be (p.width.bits / 8) p.value ∧
      meaningOf ⟨false, false, p.width⟩ out [w] = some [⟨a.toNat, w, false⟩]) ∧
  (∀ (a : BitVec 6) (p : Datum) (s : State) (w : Nat), s.session = some ⟨false, true, p.width⟩ →
    ∃ out, exec (.rdS6B a p) s = .next { s with response := some ⟨.ok, some (.bytes out)⟩ } ∧
      out = [BitVec.ofNat 8 a.toNat] ++ be (p.width.bits / 8) p.value ∧
      meaningOf ⟨false, true, p.width⟩ out [w] = some [⟨a.toNat, w, false⟩]) ∧
  (∀ (a : BitVec 15) (p : Datum) (s : State) (w : Nat), s.session = some ⟨true, false, p.width⟩ →
    ∃ out, exec (.rdX15 a p) s = .next { s with response := some ⟨.ok, some (.bytes out)⟩ } ∧
      out = [BitVec.ofNat 8 (a.toNat / 256), BitVec.ofNat 8 (a.toNat % 256)] ++ be (p.width.bits / 8) p.value ∧
      meaningOf ⟨true, false, p.width⟩ out [w] = some [⟨a.toNat, w, false⟩]) ∧
  (∀ (a : BitVec 14) (p : Datum) (s : State) (w : Nat), s.session = some ⟨true, true, p.width⟩ →
    ∃ out, exec (.rdX14B a p) s = .next { s with response := some ⟨.ok, some (.bytes out)⟩ } ∧
      out = [BitVec.ofNat 8 (a.toNat / 256), BitVec.ofNat 8 (a.toNat % 256)] ++ be (p.width.bits / 8) p.value ∧
      meaningOf ⟨true, true, p.width⟩ out [w] = some [⟨a.toNat, w, false⟩]) ∧
  (∀ (m : Mode) (hdr : List Byte) (w : Nat) (s : State), s.session = some m → hdr.length = headerBytes m → w < 2 ^ wordBits m →
    exec (.decodeResponse (hdr ++ be (wordBytes m) w)) s = .next { s with response := some ⟨.ok, some (.words [w])⟩ })

/-- R115. WRB in its two formats and both widths: in the mode of its format, with two or more words, it emits the header with both
flags, then every word in order, and stands for one write per word at consecutive addresses; with fewer it is `InvalidFrame`; in a
session that cannot burst the same operands are `BurstNotSupported`. -/
def Obligations.BurstWriteEmitsItsBytes : Prop :=
  (∀ (a : BitVec 6) (vs : Payload) (s : State), s.session = some ⟨false, true, vs.width⟩ →
    (2 ≤ vs.values.length →
      ∃ out, exec (.wrbS6B a vs) s = .next { s with response := some ⟨.ok, some (.bytes out)⟩ } ∧
        out = [BitVec.ofNat 8 (0xC0 + a.toNat)] ++ vs.values.flatMap (be (vs.width.bits / 8)) ∧
        meaningOf ⟨false, true, vs.width⟩ out [] =
          some (vs.values.zipIdx.map (fun (v, i) => ⟨a.toNat + i, v, true⟩))) ∧
    (vs.values.length < 2 → exec (.wrbS6B a vs) s = .next { s with response := some ⟨.invalidFrame, none⟩ })) ∧
  (∀ (a : BitVec 14) (vs : Payload) (s : State), s.session = some ⟨true, true, vs.width⟩ →
    (2 ≤ vs.values.length →
      ∃ out, exec (.wrbX14B a vs) s = .next { s with response := some ⟨.ok, some (.bytes out)⟩ } ∧
        out = [BitVec.ofNat 8 (0xC0 + a.toNat / 256), BitVec.ofNat 8 (a.toNat % 256)]
          ++ vs.values.flatMap (be (vs.width.bits / 8)) ∧
        meaningOf ⟨true, true, vs.width⟩ out [] =
          some (vs.values.zipIdx.map (fun (v, i) => ⟨a.toNat + i, v, true⟩))) ∧
    (vs.values.length < 2 → exec (.wrbX14B a vs) s = .next { s with response := some ⟨.invalidFrame, none⟩ })) ∧
  (∀ (a : BitVec 6) (b : BitVec 14) (vs : Payload) (m : Mode) (s : State), s.session = some m → m.burstCapable = false →
    exec (.wrbS6B a vs) s = .next { s with response := some ⟨.burstNotSupported, none⟩ } ∧
    exec (.wrbX14B b vs) s = .next { s with response := some ⟨.burstNotSupported, none⟩ })

/-- R116. RDB in its two formats and both widths: in the mode of its format, with two or more placeholders, it emits the header
with the burst flag alone, then the placeholders, and stands for as many reads at consecutive addresses, whose words are those
read back; with fewer it is `InvalidFrame`; in a session that cannot burst the same operands are `BurstNotSupported`;
DECODE_RESPONSE recovers words that stand one after the other behind the header in the response. -/
def Obligations.BurstReadEmitsItsBytes : Prop :=
  (∀ (a : BitVec 6) (ps : Payload) (s : State) (ws : List Nat), s.session = some ⟨false, true, ps.width⟩ →
    2 ≤ ps.values.length → ws.length = ps.values.length →
    ∃ out, exec (.rdbS6B a ps) s = .next { s with response := some ⟨.ok, some (.bytes out)⟩ } ∧
      out = [BitVec.ofNat 8 (0x40 + a.toNat)] ++ ps.values.flatMap (be (ps.width.bits / 8)) ∧
      meaningOf ⟨false, true, ps.width⟩ out ws = some (ws.zipIdx.map (fun (w, i) => ⟨a.toNat + i, w, false⟩))) ∧
  (∀ (a : BitVec 14) (ps : Payload) (s : State) (ws : List Nat), s.session = some ⟨true, true, ps.width⟩ →
    2 ≤ ps.values.length → ws.length = ps.values.length →
    ∃ out, exec (.rdbX14B a ps) s = .next { s with response := some ⟨.ok, some (.bytes out)⟩ } ∧
      out = [BitVec.ofNat 8 (0x40 + a.toNat / 256), BitVec.ofNat 8 (a.toNat % 256)]
        ++ ps.values.flatMap (be (ps.width.bits / 8)) ∧
      meaningOf ⟨true, true, ps.width⟩ out ws = some (ws.zipIdx.map (fun (w, i) => ⟨a.toNat + i, w, false⟩))) ∧
  (∀ (a : BitVec 6) (ps : Payload) (s : State), s.session = some ⟨false, true, ps.width⟩ → ps.values.length < 2 →
    exec (.rdbS6B a ps) s = .next { s with response := some ⟨.invalidFrame, none⟩ }) ∧
  (∀ (a : BitVec 14) (ps : Payload) (s : State), s.session = some ⟨true, true, ps.width⟩ → ps.values.length < 2 →
    exec (.rdbX14B a ps) s = .next { s with response := some ⟨.invalidFrame, none⟩ }) ∧
  (∀ (a : BitVec 6) (b : BitVec 14) (ps : Payload) (m : Mode) (s : State), s.session = some m → m.burstCapable = false →
    exec (.rdbS6B a ps) s = .next { s with response := some ⟨.burstNotSupported, none⟩ } ∧
    exec (.rdbX14B b ps) s = .next { s with response := some ⟨.burstNotSupported, none⟩ }) ∧
  (∀ (m : Mode) (hdr : List Byte) (ws : List Nat) (s : State), s.session = some m → hdr.length = headerBytes m →
    (∀ w ∈ ws, w < 2 ^ wordBits m) →
    exec (.decodeResponse (hdr ++ ws.flatMap (be (wordBytes m)))) s = .next { s with response := some ⟨.ok, some (.words ws)⟩ })

/-- R84 and log 4: in every state, whatever its session, a frame kind is ENCODE of the frame with its address, its flags and its
words. -/
def Obligations.FrameKindsAreEncodeShorthands : Prop :=
  ∀ (a₇ : BitVec 7) (a₆ : BitVec 6) (a₁₅ : BitVec 15) (a₁₄ : BitVec 14) (d : Datum) (p : Payload) (s : State),
    exec (.rdS7 a₇ d) s = exec (.encode ⟨a₇.toNat, false, false, [d.value]⟩) s ∧
    exec (.wrS7 a₇ d) s = exec (.encode ⟨a₇.toNat, true, false, [d.value]⟩) s ∧
    exec (.rdS6B a₆ d) s = exec (.encode ⟨a₆.toNat, false, false, [d.value]⟩) s ∧
    exec (.wrS6B a₆ d) s = exec (.encode ⟨a₆.toNat, true, false, [d.value]⟩) s ∧
    exec (.rdbS6B a₆ p) s = exec (.encode ⟨a₆.toNat, false, true, p.values⟩) s ∧
    exec (.wrbS6B a₆ p) s = exec (.encode ⟨a₆.toNat, true, true, p.values⟩) s ∧
    exec (.rdX15 a₁₅ d) s = exec (.encode ⟨a₁₅.toNat, false, false, [d.value]⟩) s ∧
    exec (.wrX15 a₁₅ d) s = exec (.encode ⟨a₁₅.toNat, true, false, [d.value]⟩) s ∧
    exec (.rdX14B a₁₄ d) s = exec (.encode ⟨a₁₄.toNat, false, false, [d.value]⟩) s ∧
    exec (.wrX14B a₁₄ d) s = exec (.encode ⟨a₁₄.toNat, true, false, [d.value]⟩) s ∧
    exec (.rdbX14B a₁₄ p) s = exec (.encode ⟨a₁₄.toNat, false, true, p.values⟩) s ∧
    exec (.wrbX14B a₁₄ p) s = exec (.encode ⟨a₁₄.toNat, true, true, p.values⟩) s

/-- R71 against R75: in its own mode every well-formed frame kind makes ENCODE emit exactly the bytes the pictures of R71 draw for
it, so the arithmetic of the header and its pictures are one layout. -/
def Obligations.FrameKindsEmitTheirOwnEncoding : Prop :=
  ∀ (i : Instr) (m : Mode) (s : State), i.wellFormed = true → i.frameMode = some m → s.session = some m →
    ∃ bytes, encode i = .frame bytes ∧
      exec i s = .next { s with response := some ⟨.ok, some (.bytes bytes)⟩ }

/-- The shorthands of R84 give frames well formed for the mode whatever the placeholder is, and `mkframe` derives the burst flag
from the count. -/
def Obligations.ShorthandFramesAreWellFormed : Prop :=
  ∀ (m : Mode) (a : Nat), a < 2 ^ addressBits m →
    (∀ v, v < 2 ^ wordBits m → wellFormedFrame m (frameWR a v) = true) ∧
    wellFormedFrame m (frameRD m a) = true ∧
    (∀ (w : Bool) (vs : List Nat), vs ≠ [] → (m.burstCapable = true ∨ vs.length = 1) → (∀ v ∈ vs, v < 2 ^ wordBits m) →
      wellFormedFrame m (mkFrame a w vs) = true) ∧
    (m.burstCapable = true →
      (∀ vs : List Nat, 2 ≤ vs.length → (∀ v ∈ vs, v < 2 ^ wordBits m) → wellFormedFrame m (frameWRB a vs) = true) ∧
      (∀ n, 2 ≤ n → wellFormedFrame m (frameRDB m a n) = true))

/-! ## DECODE_RESPONSE -/

/-- R141, R140. DECODE_RESPONSE, op code 2: `NoSession` first; then `MalformedResponse` for a length that is not a header and whole
words; else it strips the header and returns the words, each unsigned and big-endian; nothing but the response is written. -/
def Obligations.DecodeResponseReturnsTheWords : Prop :=
  ∀ (raw : List Byte) (s : State),
    (s.session = none → exec (.decodeResponse raw) s = .next { s with response := some ⟨.noSession, none⟩ }) ∧
    (∀ m, s.session = some m →
      ((raw.length < headerBytes m ∨ (raw.length - headerBytes m) % wordBytes m ≠ 0) →
        exec (.decodeResponse raw) s = .next { s with response := some ⟨.malformedResponse, none⟩ }) ∧
      (headerBytes m ≤ raw.length → (raw.length - headerBytes m) % wordBytes m = 0 →
        ∃ ws, exec (.decodeResponse raw) s = .next { s with response := some ⟨.ok, some (.words ws)⟩ } ∧
          ws.length = (raw.length - headerBytes m) / wordBytes m ∧
          (m.wordWidth = .w8 → ws = (raw.drop (headerBytes m)).map BitVec.toNat) ∧
          (m.wordWidth = .w16 → ∀ (i : Nat) (hi lo : Byte), raw[headerBytes m + 2 * i]? = some hi →
            raw[headerBytes m + 2 * i + 1]? = some lo → ws[i]? = some (hi.toNat * 256 + lo.toNat)))) ∧
    (∀ x : Operand, decode s.session (.command 2#2 x) = .ok (.decodeResponse x.raw))

/-- R175. DECODE_RESPONSE is `MalformedResponse` when the response is shorter than the header or is not a whole number of words
after it, and in a session it is so only then. -/
def Obligations.MalformedResponseIsByLengthAlone : Prop :=
  ∀ (m : Mode) (raw : List Byte) (s : State), s.session = some m →
    (exec (.decodeResponse raw) s = .next { s with response := some ⟨.malformedResponse, none⟩ } ↔
      (raw.length < headerBytes m ∨ (raw.length - headerBytes m) % wordBytes m ≠ 0))

/-- R142. A response that holds a header and no word decodes to the empty sequence, with `OK`. -/
def Obligations.HeaderOnlyResponseDecodesToNoWords : Prop :=
  ∀ (m : Mode) (raw : List Byte) (s : State), s.session = some m → raw.length = headerBytes m →
    exec (.decodeResponse raw) s = .next { s with response := some ⟨.ok, some (.words [])⟩ }

/-- R144. The answer depends on `extended_address`, `word_width`, the length and the bytes after the header: neither the header
bytes nor `burst_capable` are looked at. -/
def Obligations.DecodeResponseIgnoresHeaderAndBurst : Prop :=
  ∀ (e b b' : Bool) (w : WordWidth) (raw raw' : List Byte) (s s' t t' : State),
    s.session = some ⟨e, b, w⟩ → s'.session = some ⟨e, b', w⟩ → raw.length = raw'.length →
    raw.drop (headerBytes ⟨e, b, w⟩) = raw'.drop (headerBytes ⟨e, b, w⟩) →
    exec (.decodeResponse raw) s = .next t → exec (.decodeResponse raw') s' = .next t' →
    t.response = t'.response

/-- R143. Every returned word is below `2^W`, and the words and the header account for every byte of the response. -/
def Obligations.DecodedWordsAccountForTheResponse : Prop :=
  ∀ (m : Mode) (raw : List Byte) (ws : List Nat) (s t : State), s.session = some m →
    exec (.decodeResponse raw) s = .next t → t.response = some ⟨.ok, some (.words ws)⟩ →
    (∀ w ∈ ws, w < 2 ^ wordBits m) ∧ ws.length * wordBytes m + headerBytes m = raw.length

/-! ## Inverses -/

/-- R157. A frame of either direction, encoded and handed back to DECODE_RESPONSE unchanged, gives the frame's own words. -/
def Obligations.MirroredFrameDecodesToItsValues : Prop :=
  ∀ (m : Mode) (f : Frame) (s : State), s.session = some m → wellFormedFrame m f = true →
    ∃ (out : List Byte) (t : State), exec (.encode f) s = .next t ∧ t.response = some ⟨.ok, some (.bytes out)⟩ ∧
      exec (.decodeResponse out) t = .next { t with response := some ⟨.ok, some (.words f.values)⟩ }

/-- R158. `parse_frame` undoes `encode` on every well-formed frame, and `encode` undoes `parse_frame` on every byte sequence it
accepts: the image of `encode` is exactly what `parse_frame` accepts. -/
def Obligations.ParseFrameInvertsEncode : Prop :=
  (∀ (m : Mode) (f : Frame), wellFormedFrame m f = true →
    ∃ out, encodeFrame (candidate m) f = .ok out ∧ parseFrame m out = some f) ∧
  (∀ (m : Mode) (b : List Byte) (f : Frame), parseFrame m b = some f →
    wellFormedFrame m f = true ∧ encodeFrame (candidate m) f = .ok b)

/-- R71, R82. Decoding the encoded form of any well-formed instruction, under the mode it belongs to if it is a frame kind, gives
it back with every operand at every value. -/
def Obligations.DecodeOfEncodeIsTheInstruction : Prop :=
  ∀ (i : Instr) (session : Option Mode), i.wellFormed = true → (∀ m, i.frameMode = some m → session = some m) →
    decode session (encode i) = .ok i

/-- R78, R81. Whatever decodes is well formed, a frame kind only under its own mode, and bytes have one meaning under one mode: a
frame that decodes is the encoding of what it decodes to. -/
def Obligations.DecodedFramesEncodeToThemselves : Prop :=
  ∀ (session : Option Mode) (o : Offer) (i : Instr), decode session o = .ok i →
    i.wellFormed = true ∧ (∀ m, i.frameMode = some m → session = some m) ∧
    (∀ bytes, o = .frame bytes → i.frameMode ≠ none ∧ encode i = .frame bytes)

/-- A few words written out bit by bit from R71 and R82 decode to the instruction they stand for. -/
def Obligations.WrittenWordsDecode : Prop :=
  decode (some ⟨false, false, .w8⟩) (.frame [0b10000010, 0b11001010]) = .ok (.wrS7 0x02 (.byte 0xCA)) ∧
  decode (some ⟨false, true, .w16⟩) (.frame [0b01010101, 0, 1, 0, 2]) = .ok (.rdbS6B 0x15 (.words [1, 2])) ∧
  decode (some ⟨true, false, .w8⟩) (.frame [0b01111111, 0b11111110, 0]) = .ok (.rdX15 0x7FFE (.byte 0)) ∧
  decode (some ⟨true, true, .w16⟩) (.frame [0b11000000, 0b00010000, 0xAA, 0x10, 0xAA, 0x11])
    = .ok (.wrbX14B 0x10 (.words [0xAA10, 0xAA11])) ∧
  decode none (.command 0b10 ⟨⟨false, false, 0⟩, ⟨0, false, false, []⟩, [0x55]⟩) = .ok (.decodeResponse [0x55])

/-- R159. `encode` is not injective across modes: two different frames in two modes, and two in the two widths of one header
format, give the same bytes. -/
def Obligations.SameBytesUnderDifferentModes : Prop :=
  encodeFrame ⟨true, false, 8⟩ (frameWR 0x0102 0x03) = .ok [0x81, 0x02, 0x03] ∧
  encodeFrame ⟨false, false, 16⟩ (frameWR 0x01 0x0203) = .ok [0x81, 0x02, 0x03] ∧
  encodeFrame ⟨false, true, 8⟩ (frameWRB 0x01 [0x02, 0x03, 0x04, 0x05]) = .ok [0xC1, 0x02, 0x03, 0x04, 0x05] ∧
  encodeFrame ⟨false, true, 16⟩ (frameWRB 0x01 [0x0203, 0x0405]) = .ok [0xC1, 0x02, 0x03, 0x04, 0x05]

/-! ## Statuses -/

/-- Resting on R171, which names the operations: the codes of the nine statuses; which of them each operation can raise; and that no
status but `OK` comes with a recorded value. That a frame kind can end with the statuses of ENCODE is the model's choice (log 4). -/
def Obligations.StatusesAreTheTable : Prop :=
  [Status.ok, .unsupportedWidth, .burstNotSupported, .addressOutOfRange, .malformedResponse, .invalidFrame, .noSession,
    .alreadyConfigured, .illegalOperation].map Status.code = [0, 1, 2, 3, 4, 5, 6, 7, 8] ∧
  (∀ x y : Status, x.code = y.code → x = y) ∧
  (∀ (i : Instr) (s t : State) (r : Response), exec i s = .next t → t.response = some r →
    (r.status = .ok ↔ r.result ≠ none) ∧
    r.status ∈ statusesOf i) ∧
  (∀ (s : State) (x : Operand) (rest : List Input), s.inputs = .offer (.command 3#2 x) :: rest →
    ∃ t, step s = .next t ∧ t.response = some ⟨.illegalOperation, none⟩)

/-- R182. An operation that ends with any status but `OK` leaves the state as it was, with that status and no result on the
response port. -/
def Obligations.RaisedStatusChangesNothingElse : Prop :=
  ∀ (i : Instr) (s t : State) (r : Response), exec i s = .next t → t.response = some r → r.status ≠ .ok →
    t = { s with response := some ⟨r.status, none⟩ }

/-- R183. After a status the block performs the next operation as if the failed one had never been offered. -/
def Obligations.FailedOperationLeavesNoTrace : Prop :=
  ∀ (i j : Instr) (s t : State) (r : Response), exec i s = .next t → t.response = some r → r.status ≠ .ok →
    exec j t = exec j s

/-- Resting on R24 and R27: every instruction completes in every state, and its answer and the session it leaves depend on the session
and the operand alone: not on what is offered next, nor on an earlier response. For a frame kind in a session of another format, of
which the spec does not speak, this is the model's choice (log 4). -/
def Obligations.AnswerDependsOnSessionAndOperandAlone : Prop :=
  ∀ (i : Instr) (s s' : State), s.session = s'.session →
    ∃ t t', exec i s = .next t ∧ exec i s' = .next t' ∧ t.session = t'.session ∧ t.response = t'.response ∧
      t.inputs = s.inputs ∧ t'.inputs = s'.inputs

/-- R111, R141, and the same of the frame kinds: no instruction but CONFIGURE writes the session, and every one returns a
response. -/
def Obligations.OperationsButConfigureWriteNoState : Prop :=
  ∀ (i : Instr) (s t : State), (∀ c, i ≠ .configure c) → exec i s = .next t →
    ∃ r, t = { s with response := some r }

/-! ## The step -/

/-- An offer that decodes to an instruction under the session makes the step that instruction, in the state that no longer holds
the offer. That offers wait in a list is the model's choice (log 1), and so is that a frame can be offered in wire form and is then
performed (log 5): the spec has a command port only. -/
def Obligations.StepRunsTheDecodedInstruction : Prop :=
  ∀ (s : State) (o : Offer) (rest : List Input) (i : Instr), s.inputs = .offer o :: rest → decode s.session o = .ok i →
    step s = exec i { s with inputs := rest }

/-- R179. The reserved op code ends with `IllegalOperation` whatever the session is, and changes nothing else. -/
def Obligations.ReservedOpRaisesIllegalOperation : Prop :=
  ∀ (s : State) (x : Operand) (rest : List Input), s.inputs = .offer (.command 3#2 x) :: rest →
    step s = .next { s with inputs := rest, response := some ⟨.illegalOperation, none⟩ }

/-- A frame offered in wire form in a session is refused exactly when `parse_frame` (R156) calls its bytes malformed (log 6); with
no session it ends with `NoSession` (log 5). -/
def Obligations.WireFramesStopExactlyWhenMalformed : Prop :=
  ∀ (s : State) (bytes : List Byte) (rest : List Input), s.inputs = .offer (.frame bytes) :: rest →
    (∀ m, s.session = some m →
      ((∃ why, step s = .refused (.malformedFrame why)) ↔ parseFrame m bytes = none)) ∧
    (s.session = none → step s = .next { s with inputs := rest, response := some ⟨.noSession, none⟩ })

/-- R185 and log 3: with nothing offered nothing happens, and no status is latched. -/
def Obligations.NothingHappensUnlessOffered : Prop :=
  ∀ s : State, s.inputs = [] → step s = .next { s with response := none }

/-- A word of the opcode table, fetched in any state, is performed by the very next step (log 8, 9). -/
def Obligations.TableWordIsPerformedNext : Prop :=
  ∀ (s : State) (nbits w : Nat) (i : Instr), decodeTableWord nbits w = some i →
    ∃ s', step (s.withFetchWord nbits w) = exec i s' ∧ s'.inputs = s.inputs ∧ s'.response = s.response ∧
      (i.frameMode = none → s'.session = s.session) ∧ (∀ m, i.frameMode = some m → s'.session = some m)

/-- The invariant of the response port: whatever state a step starts in, what it answers is sound: a result exactly with `OK`, bytes
only that are a frame of the session's mode, words below `2^W`, and a status only where the session allows it (R24, R81, R143,
R170, R172 to R179). -/
def Obligations.EveryStepAnswersSoundly : Prop :=
  ∀ s t : State, step s = .next t → t.sound = true

/-- The reset state is sound. -/
def Obligations.ResetStateIsSound : Prop := State.reset.sound = true

/-! ## What a frame means, and the transfer -/

/-- R151. The expansion of a frame is one transaction per word at addresses `A, A+1, ...`, never reduced, in the frame's direction,
with the frame's words or the words read back; the expansions of successive frames follow each other. -/
def Obligations.ExpansionWalksTheAddresses : Prop :=
  (∀ (f : Frame) (readBack : List Nat), (f.isWrite = false → readBack.length = f.values.length) →
    (expand f readBack).length = f.values.length ∧
    ∀ (i d : Nat), (if f.isWrite then f.values[i]? else readBack[i]?) = some d →
      (expand f readBack)[i]? = some ⟨f.address + i, d, f.isWrite⟩) ∧
  (∀ xs ys : List (Frame × List Nat), expandAll (xs ++ ys) = expandAll xs ++ expandAll ys) ∧
  (∀ (f : Frame) (readBack : List Nat), expandAll [(f, readBack)] = expand f readBack)

/-- R49, R152. ENCODE checks the base address only: a frame that runs past the top of the space is encoded all the same, and its
expansion then has an address that does not exist; a frame inside the space has none. -/
def Obligations.OverflowingFrameIsEncodedUnwrapped : Prop :=
  ∀ (m : Mode) (f : Frame) (s : State) (readBack : List Nat), s.session = some m → wellFormedFrame m f = true →
    (f.isWrite = false → readBack.length = f.values.length) →
    (∃ out, exec (.encode f) s = .next { s with response := some ⟨.ok, some (.bytes out)⟩ }) ∧
    (2 ^ addressBits m ≤ f.address + f.values.length - 1 ↔ ∃ x ∈ expand f readBack, 2 ^ addressBits m ≤ x.adr)

/-- R154. Whatever the far end answers, a transfer of a well-formed frame ends with the transport's own error or with exactly `N`
words of the mode's width, never with a status of the codec; a frame ENCODE refuses ends it with that status and the far end is
not touched. -/
def Obligations.TransferReturnsNWords : Prop :=
  ∀ (σ : Type) (D : Device σ) (d : σ) (m : Mode) (f : Frame),
    (wellFormedFrame m f = true →
      (transfer D d (candidate m) f).2 = .transportError ∨
      ∃ ws, (transfer D d (candidate m) f).2 = .words ws ∧ ws.length = f.values.length ∧ ∀ w ∈ ws, w < 2 ^ wordBits m) ∧
    (∀ st, encodeFrame (candidate m) f = .error st → transfer D d (candidate m) f = (d, .status st))

/-- R84, R154. XFER as the user performs it on the block, an ENCODE and then a DECODE_RESPONSE of what the far end answered: the first
step answers the bytes of `encode`, which are those the transfer sends, and the second the words of the transfer. -/
def Obligations.XferOnTheBlockIsTheTransfer : Prop :=
  ∀ (σ : Type) (D : Device σ) (d : σ) (m : Mode) (f : Frame) (ws : List Nat) (s : State) (rest : List Input),
    s.session = some m → s.inputs = linesXfer D d m f ++ rest → (transfer D d (candidate m) f).2 = .words ws →
    ∃ t u out, encodeFrame (candidate m) f = .ok out ∧ step s = .next t ∧ t.response = some ⟨.ok, some (.bytes out)⟩ ∧
      step t = .next u ∧ u = { s with inputs := rest, response := some ⟨.ok, some (.words ws)⟩ }

/-- R155, R157. The mirror device hands a transfer the frame's own words. -/
def Obligations.MirrorTransferReturnsTheValues : Prop :=
  ∀ (m : Mode) (f : Frame), wellFormedFrame m f = true →
    transfer mirrorDevice () (candidate m) f = ((), .words f.values)

/-- R153, R155, Scenario C: on the memory device (test scaffolding, log 15), a write and then a read of as many words at the same
address returns the words written, in every format and width, and the device's log gains the two expansions in order. -/
def Obligations.MemoryDeviceReadsBackWhatWasWritten : Prop :=
  ∀ (d : MemoryDevice) (f g : Frame), Memory.wf d.mem = true → wellFormedFrame d.mode f = true → wellFormedFrame d.mode g = true →
    f.isWrite = true → g.isWrite = false → g.address = f.address → g.values.length = f.values.length →
    let d₁ := (transfer memoryDevice d (candidate d.mode) f).1
    (transfer memoryDevice d₁ (candidate d.mode) g).2 = .words f.values ∧
    (transfer memoryDevice d₁ (candidate d.mode) g).1.log = d.log ++ expand f [] ++ expand g f.values

/-- The memory device's memory (R155, test scaffolding) keeps its canonical form through every transfer, of any frame under any mode.
That form is wholly the model's choice (log 15). -/
def Obligations.MemoryDeviceKeepsCanonicalMemory : Prop :=
  ∀ (d : MemoryDevice) (c : CandidateMode) (f : Frame), Memory.wf d.mem = true →
    Memory.wf (transfer memoryDevice d c f).1.mem = true

/-- R160, R151. With a conformant bridge at the far end, successive transfers of well-formed frames inside the space, all completed,
show on the bus the expansions of the frames one after the other, each read with the words returned. That the log is read with no
settle delay is the model's choice (log 19). -/
def Obligations.ConformantBridgeShowsTheExpansions : Prop :=
  ∀ (σ : Type) (D : Device σ) (m : Mode) (valid : σ → Prop) (busLog : σ → List BusTransaction) (d : σ) (fs : List Frame)
    (wss : List (List Nat)), Conformant D m valid busLog → valid d →
    (∀ f ∈ fs, wellFormedFrame m f = true ∧ f.address + f.values.length - 1 < 2 ^ addressBits m) →
    (transferAll D d (candidate m) fs).2 = wss.map .words →
    busLog (transferAll D d (candidate m) fs).1 = busLog d ++ expandAll (fs.zip wss)

/-- R155, R160. The memory device of the mode, holding words of its width, is a conformant bridge, whatever else its state is
(test scaffolding, log 15): the requirement on the far end, with no settle delay (log 19), can be met in all eight modes. -/
def Obligations.MemoryDeviceIsConformant : Prop :=
  ∀ m : Mode,
    Conformant memoryDevice m (fun d => d.mode = m ∧ Memory.fits m d.mem = true) MemoryDevice.log ∧
    (∀ (d : MemoryDevice) (f : Frame), d.mode = m → Memory.fits m d.mem = true → wellFormedFrame m f = true →
      ∃ ws, (transfer memoryDevice d (candidate m) f).2 = .words ws)

/-- Resting on R204, R205 and R184. On any far end, which answers no differently for its link being recorded, a sequence of transfers puts whole frames on the link one after the other, each with
every byte in order inside one chip-select assertion and deasserted before the next begins. A transport error can only be the last end:
then the link shows the whole frames before it and a first part of that one frame, and nothing after. That the sequence goes on after a
status is the model's choice (log 18), and so is that chip-select stays asserted after a transport error (log 13). -/
def Obligations.FramesDoNotOverlapOnTheLink : Prop :=
  ∀ (σ : Type) (D : Device σ) (d : σ) (c : CandidateMode) (fs : List Frame),
    let r := transferAll (traced D) (d, []) c fs
    (r.1.1, r.2) = transferAll D d c fs ∧
    (TransferEnd.transportError ∉ r.2 →
      r.2.length = fs.length ∧ r.1.2 = fs.flatMap (frameEvents c)) ∧
    (TransferEnd.transportError ∈ r.2 →
      ∃ (ends : List TransferEnd) (f : Frame) (out : List Byte) (k : Nat), r.2 = ends ++ [.transportError] ∧
        TransferEnd.transportError ∉ ends ∧ fs[ends.length]? = some f ∧ encodeFrame c f = .ok out ∧ k ≤ out.length ∧
        r.1.2 = (fs.take ends.length).flatMap (frameEvents c) ++ .assertSelect :: (out.take k).map .send)
end

