-- ==== Sys2Proof/Laws/Bytes.lean ====
section
/-! SUPPORT. Laws of the big-endian byte sequences (spec/20_memory.md R44, R45) and of grouping a payload into words. -/

namespace Sys2Proof.Machine

/-- The unsigned integer whose big-endian bytes are given. -/
def valueOf (bs : List Byte) : Nat := bs.foldl (fun acc b => acc * 256 + b.toNat) 0

theorem memRead_eq (raw : List Byte) (k n : Nat) : memRead raw k n = valueOf ((raw.drop k).take n) := rfl

@[simp] theorem length_be (n v : Nat) : (be n v).length = n := by
  induction n with
  | zero => rfl
  | succ n ih => simp [be, ih]

theorem be_one (v : Nat) : be 1 v = [BitVec.ofNat 8 v] := by simp [be]

theorem be_two (v : Nat) : be 2 v = [BitVec.ofNat 8 (v / 256), BitVec.ofNat 8 v] := by simp [be]

theorem valueOf_one (b : Byte) : valueOf [b] = b.toNat := by simp [valueOf]

theorem valueOf_two (b c : Byte) : valueOf [b, c] = b.toNat * 256 + c.toNat := by simp [valueOf]

/-- The one word lengths and header lengths there are (R6). -/
theorem wordBytes_cases (m : Mode) : (wordBytes m = 1 ∧ wordBits m = 8) ∨ (wordBytes m = 2 ∧ wordBits m = 16) := by
  cases m with
  | mk e b w => cases w <;> simp [wordBytes, wordBits, WordWidth.bits]

theorem wordBytes_pos (m : Mode) : 0 < wordBytes m := by
  rcases wordBytes_cases m with h | h <;> omega

theorem headerBytes_cases (m : Mode) : headerBytes m = 1 ∨ headerBytes m = 2 := by
  unfold headerBytes; split <;> simp

theorem wordBits_eq (m : Mode) : wordBits m = 8 * wordBytes m := by
  rcases wordBytes_cases m with h | h <;> omega

/-- `MemRead` of the bytes `MemWrite` produced returns the value (R45). -/
theorem valueOf_be {n v : Nat} (hn : n = 1 ∨ n = 2) (hv : v < 2 ^ (8 * n)) : valueOf (be n v) = v := by
  rcases hn with rfl | rfl
  · rw [be_one, valueOf_one, BitVec.toNat_ofNat]; omega
  · rw [be_two, valueOf_two, BitVec.toNat_ofNat, BitVec.toNat_ofNat]; omega

/-- The bytes of the value of `n` bytes are those bytes. -/
theorem be_valueOf {n : Nat} {bs : List Byte} (hn : n = 1 ∨ n = 2) (hl : bs.length = n) : be n (valueOf bs) = bs := by
  rcases hn with rfl | rfl
  · obtain ⟨b, rfl⟩ := List.length_eq_one_iff.mp hl
    simp [be_one, valueOf_one]
  · obtain ⟨b, c, rfl⟩ := List.length_eq_two.mp hl
    rw [be_two, valueOf_two]
    have hb := b.isLt
    have hc := c.isLt
    congr 1
    · apply BitVec.eq_of_toNat_eq; rw [BitVec.toNat_ofNat]; omega
    · congr 1
      apply BitVec.eq_of_toNat_eq; rw [BitVec.toNat_ofNat]; omega

theorem valueOf_lt {n : Nat} {bs : List Byte} (hn : n = 1 ∨ n = 2) (hl : bs.length = n) : valueOf bs < 2 ^ (8 * n) := by
  rcases hn with rfl | rfl
  · obtain ⟨b, rfl⟩ := List.length_eq_one_iff.mp hl
    rw [valueOf_one]; have := b.isLt; omega
  · obtain ⟨b, c, rfl⟩ := List.length_eq_two.mp hl
    rw [valueOf_two]; have := b.isLt; have := c.isLt; omega

/-- Group `count` words of `n` bytes each from the front of a byte sequence. -/
def groupWords (n : Nat) : Nat → List Byte → List Nat
  | 0, _ => []
  | count + 1, bs => valueOf (bs.take n) :: groupWords n count (bs.drop n)

@[simp] theorem length_groupWords (n count : Nat) (bs : List Byte) : (groupWords n count bs).length = count := by
  induction count generalizing bs with
  | zero => rfl
  | succ k ih => simp [groupWords, ih]

/-- Reading word `i` at `i*n` for every `i` is grouping. -/
theorem groupWords_eq_map (n count : Nat) (bs : List Byte) :
    (List.range count).map (fun i => valueOf ((bs.drop (i * n)).take n)) = groupWords n count bs := by
  induction count generalizing bs with
  | zero => rfl
  | succ k ih =>
    rw [List.range_succ_eq_map, List.map_cons, List.map_map, groupWords, ← ih]
    simp [Function.comp_def, List.drop_drop, Nat.add_mul, Nat.add_comm]

theorem groupWords_flatMap {n : Nat} (hn : n = 1 ∨ n = 2) {vs : List Nat} (hv : ∀ v ∈ vs, v < 2 ^ (8 * n)) :
    groupWords n vs.length (vs.flatMap (be n)) = vs := by
  induction vs with
  | nil => rfl
  | cons v vs ih =>
    have hv0 := hv v (by simp)
    have ih := ih (fun w hw => hv w (by simp [hw]))
    simp only [List.flatMap_cons, List.length_cons, groupWords]
    rw [List.take_left' (length_be n v), List.drop_left' (length_be n v), ih, valueOf_be hn hv0]

theorem flatMap_groupWords {n : Nat} (hn : n = 1 ∨ n = 2) {count : Nat} {bs : List Byte} (hl : bs.length = count * n) :
    (groupWords n count bs).flatMap (be n) = bs := by
  induction count generalizing bs with
  | zero => simp at hl; simp [groupWords, hl]
  | succ k ih =>
    rw [Nat.succ_mul] at hl
    have h1 : (bs.take n).length = n := by simp; omega
    have h2 : (bs.drop n).length = k * n := by simp; omega
    simp only [groupWords, List.flatMap_cons]
    rw [be_valueOf hn h1, ih h2, List.take_append_drop]

theorem groupWords_lt {n : Nat} (hn : n = 1 ∨ n = 2) {count : Nat} {bs : List Byte} (hl : count * n ≤ bs.length) :
    ∀ w ∈ groupWords n count bs, w < 2 ^ (8 * n) := by
  induction count generalizing bs with
  | zero => simp [groupWords]
  | succ k ih =>
    rw [Nat.succ_mul] at hl
    intro w hw
    simp only [groupWords, List.mem_cons] at hw
    rcases hw with rfl | hw
    · exact valueOf_lt hn (by simp; omega)
    · exact ih (by simp; omega) w hw

/-- The words after the header, grouped. -/
theorem readWords_eq (m : Mode) (raw : List Byte) :
    readWords m raw = groupWords (wordBytes m) ((raw.length - headerBytes m) / wordBytes m) (raw.drop (headerBytes m)) := by
  rw [← groupWords_eq_map, readWords]
  simp only [memRead_eq, List.drop_drop]

end Sys2Proof.Machine
end

