-- ==== Sys2Proof/Laws/Codec.lean ====
section
/-! SUPPORT. Laws of the mode's constants, the header value and the two pure functions. -/

namespace Sys2Proof.Machine

/-- A mode in session is a valid operand and stands for itself (spec/10_state.md R21). -/
@[simp] theorem toMode_candidate (m : Mode) : toMode (candidate m) = some m := by
  cases m with
  | mk e b w => cases w <;> rfl

theorem toMode_isSome (c : CandidateMode) : (toMode c).isSome = true ↔ c.wordWidth = 8 ∨ c.wordWidth = 16 := by
  unfold toMode; split
  · simp [*]
  · split <;> simp [*]

theorem toMode_eq_some {c : CandidateMode} {m : Mode} (h : toMode c = some m) : c = candidate m := by
  cases c with
  | mk e b w =>
    unfold toMode at h
    split at h
    · next hw => simp at hw h; subst h; simp [candidate, WordWidth.bits, hw]
    · split at h
      · next hw => simp at hw h; subst h; simp [candidate, WordWidth.bits, hw]
      · cases h

@[simp] theorem encodeFrame_candidate (m : Mode) (f : Frame) : encodeFrame (candidate m) f = encodeIn m f := by
  simp [encodeFrame]

@[simp] theorem decodeRaw_candidate (m : Mode) (raw : List Byte) : decodeRaw (candidate m) raw = decodeIn m raw := by
  simp [decodeRaw]

/-- `AW` and the flag bits above it, for the four header formats (R6, R22). -/
theorem addressBits_cases (m : Mode) :
    (m.burstCapable = false ∧ addressBits m + 1 = 8 * headerBytes m) ∨
    (m.burstCapable = true ∧ addressBits m + 2 = 8 * headerBytes m) := by
  cases m with
  | mk e b w => cases e <;> cases b <;> simp [addressBits, headerBytes, flagBits]

/-- The payload bytes follow the header in `values` order (R70). -/
theorem emit_eq (m : Mode) (f : Frame) :
    emit m f = be (headerBytes m) (headerValue m f) ++ f.values.flatMap (be (wordBytes m)) := by
  simp [emit, memWrite, List.flatMap_def]

theorem length_flatMap_be (n : Nat) (vs : List Nat) : (vs.flatMap (be n)).length = vs.length * n := by
  simp

/-- `L = H + N*S` (R70, R117). -/
theorem length_emit (m : Mode) (f : Frame) : (emit m f).length = headerBytes m + wordCount f * wordBytes m := by
  simp [emit_eq, wordCount]

theorem or_two_pow {x k : Nat} (h : x < 2 ^ k) : x ||| 2 ^ k = x + 2 ^ k := by
  have := Nat.two_pow_add_eq_or_of_lt h 1
  rw [Nat.mul_one] at this
  rw [Nat.or_comm, ← this, Nat.add_comm]

/-- The three terms of the header value occupy disjoint bits, so `|` may be read as `+` (R75). -/
theorem headerValue_eq {m : Mode} {f : Frame} (ha : f.address < 2 ^ addressBits m)
    (hb : f.isBurst = true → m.burstCapable = true) :
    headerValue m f = f.address + (if f.isWrite then 2 ^ (8 * headerBytes m - 1) else 0)
      + (if f.isBurst then 2 ^ (8 * headerBytes m - 2) else 0) := by
  have hmask : f.address &&& addressMask m = f.address := by
    rw [addressMask, Nat.and_two_pow_sub_one_eq_mod, Nat.mod_eq_of_lt ha]
  have hflags : 2 ^ addressBits m ≤ 2 ^ (8 * headerBytes m - 1) ∧
      (m.burstCapable = true → addressBits m = 8 * headerBytes m - 2) := by
    rcases addressBits_cases m with ⟨h, h'⟩ | ⟨h, h'⟩
    · exact ⟨Nat.pow_le_pow_right (by omega) (by omega), by simp [h]⟩
    · exact ⟨Nat.pow_le_pow_right (by omega) (by omega), fun _ => by omega⟩
  rw [headerValue, hmask, writeField, burstField, writeBit, burstBit, Nat.one_shiftLeft, Nat.one_shiftLeft]
  cases hB : f.isBurst with
  | false =>
    cases f.isWrite with
    | false => simp
    | true => simpa using or_two_pow (lt_of_lt_of_le ha hflags.1)
  | true =>
    have hcap := hb hB
    have haw := hflags.2 hcap
    rw [haw] at ha
    have h2 : 2 ^ (8 * headerBytes m - 1) = 2 * 2 ^ (8 * headerBytes m - 2) := by
      rw [← Nat.pow_succ']; congr 1; rcases headerBytes_cases m with h | h <;> omega
    cases f.isWrite with
    | false => simpa [hcap] using or_two_pow ha
    | true =>
      simp only [hcap, if_true, Option.getD_some]
      rw [Nat.or_assoc, Nat.or_comm (2 ^ (8 * headerBytes m - 1)), ← Nat.or_assoc, or_two_pow ha, or_two_pow (by omega)]
      omega

/-- The header value has `8*H` bits (R75). -/
theorem headerValue_lt {m : Mode} {f : Frame} (ha : f.address < 2 ^ addressBits m)
    (hb : f.isBurst = true → m.burstCapable = true) : headerValue m f < 2 ^ (8 * headerBytes m) := by
  rw [headerValue_eq ha hb]
  rcases addressBits_cases m with ⟨h, h'⟩ | ⟨h, h'⟩ <;> rcases headerBytes_cases m with hh | hh <;>
    rw [hh] at h' ⊢ <;> simp only [h, Bool.false_eq_true, imp_false, Bool.not_eq_true] at hb
  · rw [show addressBits m = 7 by omega] at ha; rw [hb]; split <;> simp <;> omega
  · rw [show addressBits m = 15 by omega] at ha; rw [hb]; split <;> simp <;> omega
  · rw [show addressBits m = 6 by omega] at ha; split <;> split <;> simp <;> omega
  · rw [show addressBits m = 14 by omega] at ha; split <;> split <;> simp <;> omega

/-- The checks of `encode` pass exactly on the well-formed frames (R110, R112). -/
theorem checkFrame_ok_iff (m : Mode) (f : Frame) : checkFrame m f = .ok () ↔ wellFormedFrame m f = true := by
  unfold checkFrame wellFormedFrame burstFlagAgrees
  cases hb : m.burstCapable <;> cases hB : f.isBurst <;> cases hv : valuesFit m f <;>
    by_cases h1 : 1 < wordCount f <;> by_cases h0 : wordCount f = 0 <;>
    by_cases ha : f.address < 2 ^ addressBits m <;>
    simp [h1, h0, ha, Nat.not_lt.mp, Nat.not_le.mpr] <;> omega

theorem wellFormedFrame_iff (m : Mode) (f : Frame) : wellFormedFrame m f = true ↔
    1 ≤ wordCount f ∧ (f.isBurst = true ↔ 1 < wordCount f) ∧ (m.burstCapable = true ∨ wordCount f = 1) ∧
    f.address < 2 ^ addressBits m ∧ ∀ v ∈ f.values, v < 2 ^ wordBits m := by
  cases hB : f.isBurst <;> simp [wellFormedFrame, burstFlagAgrees, valuesFit, hB, and_assoc]

/-- A well-formed frame sets the burst flag only in a mode that has one (R112). -/
theorem wellFormedFrame_burst {m : Mode} {f : Frame} (h : wellFormedFrame m f = true) :
    f.isBurst = true → m.burstCapable = true := by
  rw [wellFormedFrame_iff] at h
  intro hB
  rcases h.2.2.1 with h' | h'
  · exact h'
  · have := h.2.1.mp hB; omega

theorem encodeIn_of_wellFormed {m : Mode} {f : Frame} (h : wellFormedFrame m f = true) :
    encodeIn m f = .ok (emit m f) := by
  rw [encodeIn, (checkFrame_ok_iff m f).mpr h]

/-- If `encode` answers bytes, the frame is well formed and they are the emitted ones (R112). -/
theorem encodeIn_eq_ok {m : Mode} {f : Frame} {out : List Byte} (h : encodeIn m f = .ok out) :
    wellFormedFrame m f = true ∧ out = emit m f := by
  rw [encodeIn] at h
  split at h
  · next hc => cases h; exact ⟨(checkFrame_ok_iff m f).mp hc, rfl⟩
  · cases h

/-- The statuses `encode` can raise in a session, each with what it says of the mode (R181). -/
theorem encodeIn_eq_error {m : Mode} {f : Frame} {st : Status} (h : encodeIn m f = .error st) :
    (st = .burstNotSupported ∧ m.burstCapable = false) ∨ st = .addressOutOfRange ∨ st = .invalidFrame := by
  rw [encodeIn, checkFrame] at h
  split at h
  · cases h
  · next hc =>
    cases h
    split at hc
    · next hb => cases hc; simp at hb; exact .inl ⟨rfl, hb.1⟩
    · split at hc
      · cases hc; exact .inr (.inl rfl)
      · split at hc
        · cases hc; exact .inr (.inr rfl)
        · split at hc
          · cases hc; exact .inr (.inr rfl)
          · split at hc
            · cases hc; exact .inr (.inr rfl)
            · cases hc

/-- If `decode_response` answers words, the length was well formed and they are the words read (R140). -/
theorem decodeIn_eq_ok {m : Mode} {raw : List Byte} {ws : List Nat} (h : decodeIn m raw = .ok ws) :
    headerBytes m ≤ raw.length ∧ (raw.length - headerBytes m) % wordBytes m = 0 ∧ ws = readWords m raw := by
  rw [decodeIn] at h
  split at h
  · cases h
  · split at h
    · cases h
    · next h1 h2 => cases h; exact ⟨by omega, by omega, rfl⟩

theorem decodeIn_eq_error {m : Mode} {raw : List Byte} {st : Status} (h : decodeIn m raw = .error st) :
    st = .malformedResponse := by
  rw [decodeIn] at h
  split at h
  · cases h; rfl
  · split at h
    · cases h; rfl
    · cases h

end Sys2Proof.Machine
end

