-- ==== Sys2Proof/Laws/Decode.lean ====
section
/-! SUPPORT. Laws of the encoded fields and payloads (spec/30_encoding.md R71, R77). -/

namespace Sys2Proof

/-- The address field under the flags above it is read back. -/
@[simp] theorem extract_append_low {k n : Nat} (w : BitVec k) (a : BitVec n) : (w ++ a).extractLsb' 0 n = a := by
  apply BitVec.eq_of_getLsbD_eq
  intro i hi
  rw [BitVec.getLsbD_extractLsb', BitVec.getLsbD_append]
  simp [hi]

/-- The flag bit above a field of `n` bits is read back. -/
theorem getLsbD_append_flag {n : Nat} (w : BitVec 1) (a : BitVec n) : (w ++ a).getLsbD n = w.getLsbD 0 := by
  rw [BitVec.getLsbD_append]
  simp

/-- A flag bit above another flag and a field is read back. -/
theorem getLsbD_append_flag₂ {n : Nat} (w b : BitVec 1) (a : BitVec n) : (w ++ b ++ a).getLsbD (n + 1) = w.getLsbD 0 := by
  rw [BitVec.getLsbD_append, BitVec.getLsbD_append]
  simp

theorem getLsbD_append_flag₁ {n : Nat} (w b : BitVec 1) (a : BitVec n) : (w ++ b ++ a).getLsbD n = b.getLsbD 0 := by
  rw [BitVec.getLsbD_append, BitVec.getLsbD_append]
  simp

/-- The two bytes of a value joined again are the value (R44). -/
@[simp] theorem append_twoBytes (v : BitVec 16) : (v.extractLsb' 8 8 ++ v.extractLsb' 0 8 : BitVec (8 + 8)) = v := by
  apply BitVec.eq_of_getLsbD_eq
  intro i hi
  rw [BitVec.getLsbD_append, BitVec.getLsbD_extractLsb', BitVec.getLsbD_extractLsb']
  by_cases h : i < 8
  · simp [h]
  · have : i - 8 < 8 := by omega
    simp [h, this, show 8 + (i - 8) = i by omega]

/-- Words split into bytes are grouped into the same words (R77). -/
theorem pairBytes_flatMap (vs : List (BitVec 16)) : pairBytes (vs.flatMap twoBytes) = some vs := by
  induction vs with
  | nil => rfl
  | cons v vs ih =>
    rw [List.flatMap_cons, twoBytes]
    simp only [List.cons_append, List.nil_append, pairBytes, ih, Option.map_some]
    rw [append_twoBytes]

/-- The bytes of a burst's words are read back as those words. -/
theorem decodePayload_wire (p : Payload) : decodePayload p.width p.wire = .ok p := by
  cases p with
  | bytes vs => rfl
  | words vs => simp [Payload.width, Payload.wire, decodePayload, pairBytes_flatMap]

/-- The one-word payload a single word is. -/
def Datum.payload : Datum → Payload
  | .byte v => .bytes [v]
  | .word v => .words [v]

theorem decodePayload_datum (d : Datum) : decodePayload d.width d.wire = .ok d.payload := by
  cases d with
  | byte v => rfl
  | word v => simpa [Payload.width, Payload.wire, Datum.width, Datum.wire, Datum.payload] using decodePayload_wire (.words [v])

@[simp] theorem one_payload (d : Datum) : d.payload.one = .ok d := by cases d <;> rfl

theorem many_of_isBurst {p : Payload} (h : p.isBurst = true) : p.many = .ok p := by
  unfold Payload.isBurst at h
  unfold Payload.many
  split <;> simp_all

end Sys2Proof
end

