-- ==== Sys2Proof/Laws/State.lean ====
section
/-! SUPPORT. One lemma per field per update of the state, so that no proof unfolds a record update. -/

namespace Sys2Proof.Machine

variable (s : State) (m : Option Mode) (is : List Input) (r : Option Response) (x : Result) (st : Status)

@[simp] theorem setSession_session : (s.setSession m).session = m := rfl
@[simp] theorem setSession_inputs : (s.setSession m).inputs = s.inputs := rfl
@[simp] theorem setSession_response : (s.setSession m).response = s.response := rfl
@[simp] theorem setInputs_session : (s.setInputs is).session = s.session := rfl
@[simp] theorem setInputs_inputs : (s.setInputs is).inputs = is := rfl
@[simp] theorem setInputs_response : (s.setInputs is).response = s.response := rfl
@[simp] theorem setResponse_session : (s.setResponse r).session = s.session := rfl
@[simp] theorem setResponse_inputs : (s.setResponse r).inputs = s.inputs := rfl
@[simp] theorem setResponse_response : (s.setResponse r).response = r := rfl

@[simp] theorem finish_session : (finish x s).session = s.session := rfl
@[simp] theorem finish_inputs : (finish x s).inputs = s.inputs := rfl
@[simp] theorem finish_response : (finish x s).response = some ⟨.ok, some x⟩ := rfl
@[simp] theorem raise_session : (raise st s).session = s.session := rfl
@[simp] theorem raise_inputs : (raise st s).inputs = s.inputs := rfl
@[simp] theorem raise_response : (raise st s).response = some ⟨st, none⟩ := rfl

@[simp] theorem resetBlock_session : (resetBlock s).session = none := rfl
@[simp] theorem resetBlock_inputs : (resetBlock s).inputs = s.inputs := rfl
@[simp] theorem resetBlock_response : (resetBlock s).response = none := rfl
@[simp] theorem idle_session : (idle s).session = s.session := rfl
@[simp] theorem idle_inputs : (idle s).inputs = s.inputs := rfl
@[simp] theorem idle_response : (idle s).response = none := rfl

variable (a : Except Status Result)

@[simp] theorem answer_session : (answer a s).session = s.session := by cases a <;> rfl
@[simp] theorem answer_inputs : (answer a s).inputs = s.inputs := by cases a <;> rfl

/-- An answer is a result with `OK`, or a status with no result (R24, R170). -/
theorem answer_response : (answer a s).response =
    some (match a with | .ok x => ⟨.ok, some x⟩ | .error st => ⟨st, none⟩) := by cases a <;> rfl

/-- Two states with equal fields are equal. -/
@[ext] theorem State.ext_fields {s t : State} (h₁ : s.session = t.session) (h₂ : s.inputs = t.inputs)
    (h₃ : s.response = t.response) : s = t := by
  cases s; cases t; simp_all

end Sys2Proof.Machine
end

