-- ==== Sys2Proof/Laws/Step.lean ====
section
/-! SUPPORT. What each operation, `exec` and `step` can do, said once. -/

namespace Sys2Proof.Machine

/-- ENCODE of a frame: no session; or the bytes of a well-formed frame; or one of the three encoding errors (R111). -/
theorem encodeOperation_cases (f : Frame) (s : State) :
    (s.session = none ∧ encodeOperation f s = raise .noSession s) ∨
    (∃ m, s.session = some m ∧ wellFormedFrame m f = true ∧ encodeOperation f s = finish (.bytes (emit m f)) s) ∨
    (∃ m st, s.session = some m ∧ encodeIn m f = .error st ∧ encodeOperation f s = raise st s) := by
  unfold encodeOperation
  split
  · next h => exact .inl ⟨h, rfl⟩
  · next m h =>
    rw [encodeFrame_candidate]
    cases he : encodeIn m f with
    | ok out =>
      obtain ⟨hw, rfl⟩ := encodeIn_eq_ok he
      exact .inr (.inl ⟨m, h, hw, rfl⟩)
    | error st => exact .inr (.inr ⟨m, st, h, he, rfl⟩)

theorem encodeOperation_session (f : Frame) (s : State) : (encodeOperation f s).session = s.session := by
  unfold encodeOperation; split <;> simp_all

theorem encodeOperation_inputs (f : Frame) (s : State) : (encodeOperation f s).inputs = s.inputs := by
  unfold encodeOperation; split <;> simp_all

/-- CONFIGURE: refused in a session; refused for its width; or the mode is latched (R101). -/
theorem execConfigure_cases (c : CandidateMode) (s : State) :
    (s.session ≠ none ∧ execConfigure c s = .next (raise .alreadyConfigured s)) ∨
    (s.session = none ∧ toMode c = none ∧ execConfigure c s = .next (raise .unsupportedWidth s)) ∨
    (∃ m, s.session = none ∧ toMode c = some m ∧ execConfigure c s = .next (finish .nothing (s.setSession (some m)))) := by
  unfold execConfigure
  split
  · next h => exact .inl ⟨by simp [h], rfl⟩
  · next h h' => exact .inr (.inl ⟨h, h', rfl⟩)
  · next m h h' => exact .inr (.inr ⟨m, h, h', rfl⟩)

/-- DECODE_RESPONSE: no session; the words read; or a malformed response (R141). -/
theorem execDecodeResponse_cases (raw : List Byte) (s : State) :
    (s.session = none ∧ execDecodeResponse raw s = .next (raise .noSession s)) ∨
    (∃ m, s.session = some m ∧ decodeIn m raw = .ok (readWords m raw) ∧
      execDecodeResponse raw s = .next (finish (.words (readWords m raw)) s)) ∨
    (∃ m, s.session = some m ∧ decodeIn m raw = .error .malformedResponse ∧
      execDecodeResponse raw s = .next (raise .malformedResponse s)) := by
  unfold execDecodeResponse
  split
  · next h => exact .inl ⟨h, rfl⟩
  · next m h =>
    rw [decodeRaw_candidate]
    cases hd : decodeIn m raw with
    | ok ws =>
      have := (decodeIn_eq_ok hd).2.2
      subst this
      exact .inr (.inl ⟨m, h, hd, rfl⟩)
    | error st =>
      have := decodeIn_eq_error hd
      subst this
      exact .inr (.inr ⟨m, h, hd, rfl⟩)

/-- The frame an instruction hands to ENCODE, if it is ENCODE or a frame kind. -/
def issuedFrame : Instr → Option Frame
  | .rdS7 a p => some (singleFrame a.toNat false p)
  | .wrS7 a v => some (singleFrame a.toNat true v)
  | .rdS6B a p => some (singleFrame a.toNat false p)
  | .wrS6B a v => some (singleFrame a.toNat true v)
  | .rdbS6B a ps => some (burstFrame a.toNat false ps)
  | .wrbS6B a vs => some (burstFrame a.toNat true vs)
  | .rdX15 a p => some (singleFrame a.toNat false p)
  | .wrX15 a v => some (singleFrame a.toNat true v)
  | .rdX14B a p => some (singleFrame a.toNat false p)
  | .wrX14B a v => some (singleFrame a.toNat true v)
  | .rdbX14B a ps => some (burstFrame a.toNat false ps)
  | .wrbX14B a vs => some (burstFrame a.toNat true vs)
  | .encode f => some f
  | .configure _ | .decodeResponse _ => none

/-- An instruction is CONFIGURE, DECODE_RESPONSE, or an ENCODE of the frame it issues. -/
theorem exec_cases (i : Instr) (s : State) :
    (∃ c, i = .configure c ∧ exec i s = execConfigure c s) ∨
    (∃ raw, i = .decodeResponse raw ∧ exec i s = execDecodeResponse raw s) ∨
    (∃ f, issuedFrame i = some f ∧ exec i s = .next (encodeOperation f s)) := by
  cases i with
  | configure c => exact .inl ⟨c, rfl, rfl⟩
  | decodeResponse raw => exact .inr (.inl ⟨raw, rfl, rfl⟩)
  | _ => exact .inr (.inr ⟨_, rfl, rfl⟩)

/-- An instruction that issues a frame is ENCODE of that frame. -/
theorem exec_of_issuedFrame {i : Instr} {f : Frame} (h : issuedFrame i = some f) (s : State) :
    exec i s = .next (encodeOperation f s) := by
  cases i <;> cases h <;> rfl

/-- What a step can be: idle, a reset, an instruction, or a rejected offer. -/
theorem step_cases (s : State) :
    (s.inputs = [] ∧ step s = .next (idle s)) ∨
    (∃ rest, s.inputs = .reset :: rest ∧ step s = .next (resetBlock (s.setInputs rest))) ∨
    (∃ o rest i, s.inputs = .offer o :: rest ∧ decode s.session o = .ok i ∧ step s = exec i (s.setInputs rest)) ∨
    (∃ o rest e, s.inputs = .offer o :: rest ∧ decode s.session o = .error e ∧ step s = reject e (s.setInputs rest)) := by
  cases hi : s.inputs with
  | nil => exact .inl ⟨rfl, by simp [step, takeInput, hi]⟩
  | cons i rest =>
    cases i with
    | reset => exact .inr (.inl ⟨rest, rfl, by simp [step, takeInput, hi]⟩)
    | offer o =>
      cases hd : decode s.session o with
      | ok i => exact .inr (.inr (.inl ⟨o, rest, i, rfl, hd, by simp [step, takeInput, hi, hd]⟩))
      | error e => exact .inr (.inr (.inr ⟨o, rest, e, rfl, hd, by simp [step, takeInput, hi, hd]⟩))

/-- A rejected offer raises one of two statuses, or is refused. -/
theorem reject_eq_next {e : DecodeError} {s t : State} (h : reject e s = .next t) :
    (e = .reservedOp ∧ t = raise .illegalOperation s) ∨ (e = .noMode ∧ t = raise .noSession s) := by
  cases e <;> simp [reject] at h <;> simp [h]

/-- Only a frame offered without a session is rejected for want of a mode (R80). -/
theorem decode_noMode {session : Option Mode} {o : Offer} (h : decode session o = .error .noMode) : session = none := by
  cases session with
  | none => rfl
  | some m =>
    exfalso
    have hone : ∀ p : Payload, ∀ g : Datum → Instr, p.one.map g ≠ .error .noMode := by
      intro p g; unfold Payload.one; split <;> simp [Except.map]
    have hmany : ∀ p : Payload, ∀ g : Payload → Instr, p.many.map g ≠ .error .noMode := by
      intro p g; unfold Payload.many; split <;> simp [Except.map]
    have hpay : ∀ w bs (k : Payload → Except DecodeError Instr), (∀ p, k p ≠ .error .noMode) →
        (decodePayload w bs).bind k ≠ .error .noMode := by
      intro w bs k hk
      unfold decodePayload
      split
      · exact hk _
      · split
        · exact hk _
        · simp [Except.bind]
    cases o with
    | command op x =>
      simp only [decode, decodeCommand] at h
      split at h
      · cases h
      · split at h
        · cases h
        · split at h <;> cases h
    | frame bs =>
      simp only [decode, decodeFrame] at h
      split at h
      · refine hpay _ _ _ (fun p => ?_) h
        split
        · unfold decodeS6B; split <;> first | exact hone _ _ | exact hmany _ _
        · unfold decodeS7; dsimp only; split <;> exact hone _ _
      · refine hpay _ _ _ (fun p => ?_) h
        split
        · unfold decodeX14B; split <;> first | exact hone _ _ | exact hmany _ _
        · unfold decodeX15; dsimp only; split <;> exact hone _ _
      all_goals cases h

end Sys2Proof.Machine
end

