-- ==== Sys2Proof/Laws/Frames.lean ====
section
/-! SUPPORT. What the emitted bytes of a well-formed frame hold, and ENCODE and DECODE_RESPONSE in a session. -/

namespace Sys2Proof.Machine

theorem wordBytes_one_or_two (m : Mode) : wordBytes m = 1 ∨ wordBytes m = 2 := by
  rcases wordBytes_cases m with h | h <;> simp [h]

/-- The address and the two flags are read back from the header value (R71, R75, R156). -/
theorem headerValue_fields {m : Mode} {f : Frame} (hw : wellFormedFrame m f = true) :
    headerValue m f % 2 ^ addressBits m = f.address ∧
    (headerValue m f).testBit (8 * headerBytes m - 1) = f.isWrite ∧
    (m.burstCapable && (headerValue m f).testBit (8 * headerBytes m - 2)) = f.isBurst := by
  have hw' := (wellFormedFrame_iff m f).mp hw
  have ha := hw'.2.2.2.1
  have hB := wellFormedFrame_burst hw
  rw [headerValue_eq ha hB, Nat.testBit_eq_decide_div_mod_eq, Nat.testBit_eq_decide_div_mod_eq]
  rcases m with ⟨e, b, w⟩
  cases e <;> cases b <;> cases hW : f.isWrite <;> cases hb : f.isBurst <;>
    simp [addressBits, headerBytes, flagBits, hb] at ha hB ⊢ <;> omega

theorem emit_take_header (m : Mode) (f : Frame) :
    (emit m f).take (headerBytes m) = be (headerBytes m) (headerValue m f) := by
  rw [emit_eq, List.take_left' (length_be _ _)]

theorem emit_drop_header (m : Mode) (f : Frame) :
    (emit m f).drop (headerBytes m) = f.values.flatMap (be (wordBytes m)) := by
  rw [emit_eq, List.drop_left' (length_be _ _)]

/-- The words of an emitted frame are the frame's own. -/
theorem readWords_of_emit {m : Mode} {f : Frame} (hw : wellFormedFrame m f = true) : readWords m (emit m f) = f.values := by
  have hw' := (wellFormedFrame_iff m f).mp hw
  rw [readWords_eq, length_emit, Nat.add_sub_cancel_left, Nat.mul_div_cancel _ (wordBytes_pos m), emit_drop_header]
  exact groupWords_flatMap (wordBytes_one_or_two m) (by rw [← wordBits_eq]; exact hw'.2.2.2.2)

/-- The frame that stands in an emitted frame's bytes is the frame. -/
theorem frameOfBytes_of_emit {m : Mode} {f : Frame} (hw : wellFormedFrame m f = true) :
    frameOfBytes m (emit m f) = f := by
  have hw' := (wellFormedFrame_iff m f).mp hw
  have hv : memRead (emit m f) 0 (headerBytes m) = headerValue m f := by
    rw [memRead_eq, List.drop_zero, emit_take_header,
      valueOf_be (headerBytes_cases m) (headerValue_lt hw'.2.2.2.1 (wellFormedFrame_burst hw))]
  obtain ⟨h1, h2, h3⟩ := headerValue_fields hw
  simp only [frameOfBytes, hv, h1, h2, h3, readWords_of_emit hw]

/-- ENCODE, in a session, of a frame that passes every check. -/
theorem encodeOperation_of_wellFormed {m : Mode} {f : Frame} {s : State} (h : s.session = some m)
    (hw : wellFormedFrame m f = true) : encodeOperation f s = finish (.bytes (emit m f)) s := by
  rw [encodeOperation, h]; simp [encodeIn_of_wellFormed hw, Except.map, answer]

/-- ENCODE, in a session, of a frame a check turns away. -/
theorem encodeOperation_of_error {m : Mode} {f : Frame} {s : State} {st : Status} (h : s.session = some m)
    (he : checkFrame m f = .error st) : encodeOperation f s = raise st s := by
  rw [encodeOperation, h]; simp [encodeIn, he, Except.map, answer]

/-- DECODE_RESPONSE, in a session, of a response of whole words. -/
theorem execDecodeResponse_of_ok {m : Mode} {raw : List Byte} {ws : List Nat} {s : State} (h : s.session = some m)
    (hd : decodeIn m raw = .ok ws) : execDecodeResponse raw s = .next (finish (.words ws) s) := by
  rw [execDecodeResponse, h]; simp [hd, Except.map, answer]

end Sys2Proof.Machine
end

