-- ==== Sys2Proof/Laws/Memory.lean ====
section
/-! SUPPORT. The memory device's word memory: every operation keeps its canonical form, and a read after a write gives the
word written there and leaves every other address alone. -/

namespace Sys2Proof.Machine

/-- The canonical form, entry by entry: the word listed is not what an unlisted address reads as, and every later address is
higher. -/
theorem Memory.wf_cons (a v : Nat) (rest : List (Nat × Nat)) :
    Memory.wf ((a, v) :: rest) = true ↔ v ≠ unwrittenWord ∧ (∀ e ∈ rest, a < e.1) ∧ Memory.wf rest = true := by
  induction rest generalizing a v with
  | nil => simp [Memory.wf]
  | cons e rest ih =>
    obtain ⟨b, w⟩ := e
    simp only [Memory.wf, Bool.and_eq_true, decide_eq_true_eq, bne_iff_ne, List.mem_cons, forall_eq_or_imp]
    constructor
    · rintro ⟨⟨hab, hv⟩, hw⟩
      exact ⟨hv, ⟨hab, fun e he => lt_trans hab (((ih b w).mp hw).2.1 e he)⟩, hw⟩
    · rintro ⟨hv, ⟨hab, -⟩, hw⟩
      exact ⟨⟨hab, hv⟩, hw⟩

/-- An address below every listed one reads as unwritten. -/
theorem memoryRead_below {mem : List (Nat × Nat)} {b : Nat} (h : ∀ e ∈ mem, b < e.1) : memoryRead mem b = unwrittenWord := by
  induction mem with
  | nil => rfl
  | cons e rest ih =>
    obtain ⟨c, w⟩ := e
    have hc := h (c, w) (by simp)
    simp only at hc
    rw [memoryRead, if_neg (by omega), ih (fun e he => h e (by simp [he]))]

/-- A read after a write: the word written at that address, and every other address as before. -/
theorem memoryRead_memoryWrite {mem : List (Nat × Nat)} (hm : Memory.wf mem = true) (a v b : Nat) :
    memoryRead (memoryWrite mem a v) b = if b = a then v else memoryRead mem b := by
  induction mem with
  | nil =>
    unfold memoryWrite
    by_cases hv : v = unwrittenWord <;> simp [hv, memoryRead]
  | cons e rest ih =>
    obtain ⟨c, w⟩ := e
    obtain ⟨-, hlow, hrest⟩ := (Memory.wf_cons c w rest).mp hm
    have ih := ih hrest
    unfold memoryWrite
    by_cases hac : a < c
    · by_cases hv : v = unwrittenWord
      · by_cases hb : b = a
        · have : memoryRead ((c, w) :: rest) a = unwrittenWord := memoryRead_below (by
            intro e he
            rcases List.mem_cons.mp he with rfl | he
            · exact hac
            · exact lt_trans hac (hlow e he))
          simp [hac, hv, hb, this]
        · simp [hac, hv, hb]
      · simp [hac, hv, memoryRead]
    · by_cases hEq : a = c
      · subst hEq
        by_cases hv : v = unwrittenWord
        · by_cases hb : b = a
          · simp [hv, hb, memoryRead_below hlow]
          · simp [hv, hb, memoryRead]
        · by_cases hb : b = a <;> simp [hv, hb, memoryRead]
      · simp only [hac, hEq, if_false, memoryRead, ih]
        by_cases hb : b = c
        · have : ¬ b = a := by omega
          simp [hb, Ne.symm hEq]
        · simp [hb]

/-- A write lists no address but those listed before and its own. -/
theorem mem_memoryWrite {mem : List (Nat × Nat)} {a v : Nat} {e : Nat × Nat} (he : e ∈ memoryWrite mem a v) :
    e = (a, v) ∨ e ∈ mem := by
  induction mem with
  | nil => unfold memoryWrite at he; split at he <;> simp_all
  | cons d rest ih =>
    obtain ⟨c, w⟩ := d
    unfold memoryWrite at he
    split at he
    · split at he <;> simp_all
    · split at he
      · split at he
        · exact .inr (by simp [he])
        · rcases List.mem_cons.mp he with rfl | h
          · exact .inl rfl
          · exact .inr (by simp [h])
      · rcases List.mem_cons.mp he with rfl | h
        · exact .inr (by simp)
        · rcases ih h with h | h
          · exact .inl h
          · exact .inr (by simp [h])

/-- A write keeps the canonical form. -/
theorem memoryWrite_wf {mem : List (Nat × Nat)} (hm : Memory.wf mem = true) (a v : Nat) :
    Memory.wf (memoryWrite mem a v) = true := by
  induction mem with
  | nil =>
    unfold memoryWrite
    by_cases hv : v = unwrittenWord <;> simp [hv, Memory.wf]
  | cons d rest ih =>
    obtain ⟨c, w⟩ := d
    obtain ⟨hw, hlow, hrest⟩ := (Memory.wf_cons c w rest).mp hm
    unfold memoryWrite
    by_cases hac : a < c
    · by_cases hv : v = unwrittenWord
      · simp [hac, hv, hm]
      · simp only [hac, hv, if_true, if_false]
        refine (Memory.wf_cons _ _ _).mpr ⟨hv, ?_, hm⟩
        intro e he
        rcases List.mem_cons.mp he with rfl | he
        · exact hac
        · exact lt_trans hac (hlow e he)
    · by_cases hEq : a = c
      · subst hEq
        by_cases hv : v = unwrittenWord
        · simp [hv, hrest]
        · simp only [hac, hv, if_true, if_false]
          exact (Memory.wf_cons _ _ _).mpr ⟨hv, hlow, hrest⟩
      · simp only [hac, hEq, if_false]
        refine (Memory.wf_cons _ _ _).mpr ⟨hw, ?_, ih hrest⟩
        intro e he
        rcases mem_memoryWrite he with rfl | he
        · show c < a; omega
        · exact hlow e he

theorem memoryWriteAll_wf {mem : List (Nat × Nat)} (hm : Memory.wf mem = true) (a : Nat) (vs : List Nat) :
    Memory.wf (memoryWriteAll mem a vs) = true := by
  induction vs generalizing mem a with
  | nil => exact hm
  | cons v vs ih => exact ih (memoryWrite_wf hm a v) (a + 1)

end Sys2Proof.Machine
end

