-- ==== Sys2Proof/Laws/Devices.lean ====
section
/-! SUPPORT. What the exchange does on any far end and on the two reference devices. -/

namespace Sys2Proof.Machine

/-- One response byte for each byte sent (R154, R205). -/
theorem exchangeAll_length {σ : Type} (D : Device σ) (out : List Byte) (d d' : σ) (raw : List Byte)
    (h : exchangeAll D d out = (d', some raw)) : raw.length = out.length := by
  induction out generalizing d d' raw with
  | nil => cases h; rfl
  | cons b rest ih =>
    rw [exchangeAll] at h
    split at h
    · cases h
    · split at h
      · next h2 => cases h; simp [ih _ _ _ h2]
      · cases h

/-- A response as long as an emitted frame is never malformed. -/
theorem decodeIn_of_emit_length {m : Mode} {f : Frame} {raw : List Byte} (hl : raw.length = (emit m f).length) :
    decodeIn m raw = .ok (readWords m raw) := by
  have h1 : ¬ raw.length < headerBytes m := by rw [hl, length_emit]; omega
  have h2 : ¬ (raw.length - headerBytes m) % wordBytes m ≠ 0 := by rw [hl, length_emit]; simp
  rw [decodeIn, if_neg h1, if_neg h2]

/-- The three ways a transfer goes: the frame is refused, an exchange fails, or every byte is answered. -/
theorem transfer_of_refused {σ : Type} {D : Device σ} {d : σ} {c : CandidateMode} {f : Frame} {st : Status}
    (he : encodeFrame c f = .error st) : transfer D d c f = (d, .status st) := by
  simp [transfer, he]

theorem transfer_of_failed {σ : Type} {D : Device σ} {d d' : σ} {c : CandidateMode} {f : Frame} {out : List Byte}
    (he : encodeFrame c f = .ok out) (hx : exchangeAll D (D.select d) out = (d', none)) :
    transfer D d c f = (d', .transportError) := by
  simp [transfer, he, hx]

theorem transfer_of_answered {σ : Type} {D : Device σ} {d d' : σ} {c : CandidateMode} {f : Frame} {out raw : List Byte}
    (he : encodeFrame c f = .ok out) (hx : exchangeAll D (D.select d) out = (d', some raw)) :
    transfer D d c f =
      (D.deselect d', match decodeRaw c raw with | .error st => .status st | .ok ws => .words ws) := by
  simp only [transfer, he, hx]
  cases decodeRaw c raw <;> rfl

/-- A sequence of transfers ends at a transport error. -/
theorem transferAll_of_transportError {σ : Type} {D : Device σ} {d : σ} {c : CandidateMode} {f : Frame}
    (h : (transfer D d c f).2 = .transportError) (fs : List Frame) :
    transferAll D d c (f :: fs) = ((transfer D d c f).1, [.transportError]) := by
  simp [transferAll, h]

/-- A sequence of transfers goes on after any other end. -/
theorem transferAll_of_end {σ : Type} {D : Device σ} {d : σ} {c : CandidateMode} {f : Frame}
    (h : (transfer D d c f).2 ≠ .transportError) (fs : List Frame) :
    transferAll D d c (f :: fs) =
      ((transferAll D (transfer D d c f).1 c fs).1, (transfer D d c f).2 :: (transferAll D (transfer D d c f).1 c fs).2) := by
  simp [transferAll, h]

/-- The record of an exchange: every byte if all are answered, else the bytes up to the one that fails. -/
theorem exchangeAll_traced {σ : Type} (D : Device σ) (out : List Byte) (d : σ) (t : List LinkEvent) :
    ((exchangeAll (traced D) (d, t) out).2.isSome → (exchangeAll (traced D) (d, t) out).1.2 = t ++ out.map .send) ∧
    ((exchangeAll (traced D) (d, t) out).2 = none →
      ∃ k ≤ out.length, (exchangeAll (traced D) (d, t) out).1.2 = t ++ (out.take k).map .send) := by
  induction out generalizing d t with
  | nil => simp [exchangeAll]
  | cons b rest ih =>
    have hstep : (traced D).exchange (d, t) b = (((D.exchange d b).1, t ++ [.send b]), (D.exchange d b).2) := rfl
    have ih := ih (D.exchange d b).1 (t ++ [.send b])
    rw [exchangeAll, hstep]
    cases (D.exchange d b).2 with
    | none => exact ⟨by simp, fun _ => ⟨1, by simp, by simp⟩⟩
    | some r =>
      simp only
      cases hr : exchangeAll (traced D) ((D.exchange d b).1, t ++ [.send b]) rest with
      | mk d' o =>
        rw [hr] at ih
        cases o with
        | none =>
          refine ⟨by simp, fun _ => ?_⟩
          obtain ⟨k, hk, he⟩ := ih.2 rfl
          exact ⟨k + 1, by simp; omega, by simpa using he⟩
        | some rs => exact ⟨fun _ => by simpa using ih.1 rfl, by simp⟩

theorem exchangeAll_mirror (out : List Byte) : exchangeAll mirrorDevice () out = ((), some out) := by
  induction out with
  | nil => rfl
  | cons b rest ih => rw [exchangeAll]; simp only [mirrorDevice] at ih ⊢; simp [ih]

/-- The memory device keeps what it receives and drives one byte for each. -/
theorem exchangeAll_memory (out : List Byte) (d : MemoryDevice) : exchangeAll memoryDevice d out =
    ({ d with received := d.received ++ out },
     some ((List.range out.length).map (fun k => memoryDrive { d with received := d.received ++ out.take k }))) := by
  induction out generalizing d with
  | nil => simp [exchangeAll]
  | cons b rest ih =>
    rw [exchangeAll]
    have := ih { d with received := d.received ++ [b] }
    simp only [memoryDevice] at this ⊢
    rw [this]
    simp [List.range_succ_eq_map, Function.comp_def]

/-- Byte `q` of a run of `n`-byte words is byte `q % n` of word `q / n`. -/
theorem getElem?_flatMap_be {n : Nat} (hn : 0 < n) (ws : List Nat) (q : Nat) (hq : q < ws.length * n) :
    (ws.flatMap (be n))[q]? = some ((be n (ws.getD (q / n) 0)).getD (q % n) 0#8) := by
  induction ws generalizing q with
  | nil => simp at hq
  | cons w ws ih =>
    rw [List.flatMap_cons]
    rw [List.length_cons, Nat.succ_mul] at hq
    by_cases h : q < n
    · rw [List.getElem?_append_left (by simpa using h), Nat.div_eq_of_lt h, Nat.mod_eq_of_lt h]
      simp [h]
    · rw [List.getElem?_append_right (by simp; omega), length_be, ih (q - n) (by omega)]
      have e1 : q / n = (q - n) / n + 1 := by
        rw [← Nat.add_div_right _ hn, Nat.sub_add_cancel (by omega)]
      have e2 : (q - n) % n = q % n := by rw [← Nat.mod_eq_sub_mod (by omega)]
      rw [e1, e2]; simp

/-- The words written stand at `A, A+1, ...` and no other address is changed. -/
theorem memoryRead_memoryWriteAll {mem : List (Nat × Nat)} (hm : Memory.wf mem = true) (a : Nat) (vs : List Nat) (b : Nat) :
    memoryRead (memoryWriteAll mem a vs) b =
      if a ≤ b ∧ b < a + vs.length then vs.getD (b - a) 0 else memoryRead mem b := by
  induction vs generalizing mem a with
  | nil => rw [if_neg (by simp)]; rfl
  | cons v vs ih =>
    rw [memoryWriteAll, ih (memoryWrite_wf hm a v), memoryRead_memoryWrite hm]
    by_cases h : b = a
    · subst h; simp
    · by_cases h2 : a + 1 ≤ b ∧ b < a + 1 + vs.length
      · rw [if_pos h2, if_pos (by simp; omega)]
        rw [show b - a = (b - (a + 1)) + 1 by omega]; simp
      · rw [if_neg h2, if_neg h, if_neg (by simp; omega)]

end Sys2Proof.Machine
end

