-- ==== Sys2Proof/Laws/PerInstr.lean ====
section
/-! SUPPORT. Every instruction's encoded word carries the fixed bits of its row of spec/opcode_table.json.

The table's `fixed` entries are bits of the header value `hv`, or of the op code, bit 0 the least significant. -/

namespace Sys2Proof.Laws.RowBits

/-- The fixed bits of the instruction's row: bit number and value. -/
def fixedBits : Instr → List (Nat × Bool)
  | .rdS7 _ _ => [(7, false)]
  | .wrS7 _ _ => [(7, true)]
  | .rdS6B _ _ => [(7, false), (6, false)]
  | .wrS6B _ _ => [(7, true), (6, false)]
  | .rdbS6B _ _ => [(7, false), (6, true)]
  | .wrbS6B _ _ => [(7, true), (6, true)]
  | .rdX15 _ _ => [(15, false)]
  | .wrX15 _ _ => [(15, true)]
  | .rdX14B _ _ => [(15, false), (14, false)]
  | .wrX14B _ _ => [(15, true), (14, false)]
  | .rdbX14B _ _ => [(15, false), (14, true)]
  | .wrbX14B _ _ => [(15, true), (14, true)]
  | .configure _ => [(1, false), (0, false)]
  | .encode _ => [(1, false), (0, true)]
  | .decodeResponse _ => [(1, true), (0, false)]

/-- The header value of a frame, byte 0 the most significant, or the op code of a command. -/
def headOf (extended : Bool) : Offer → Nat
  | .command op _ => op.toNat
  | .frame bs =>
    match extended, bs with
    | false, b0 :: _ => b0.toNat
    | true, b0 :: b1 :: _ => (b0 ++ b1).toNat
    | _, _ => 0

/-- The two bytes of the header are taken for a frame kind of an extended format. -/
def isExtended (i : Instr) : Bool := i.frameMode.any (·.extendedAddress)

def Statement (i : Instr) : Prop :=
  ∀ kb ∈ fixedBits i, (headOf (isExtended i) (Sys2Proof.encode i)).testBit kb.1 = kb.2

theorem headOf_simple (b : BitVec 8) (rest : List Byte) : headOf false (.frame ([b] ++ rest)) = b.toNat := rfl

theorem headOf_extended (v : BitVec 16) (rest : List Byte) : headOf true (.frame (twoBytes v ++ rest)) = v.toNat := by
  show ((v.extractLsb' 8 8 ++ v.extractLsb' 0 8 : BitVec (8 + 8))).toNat = v.toNat
  rw [append_twoBytes]

theorem testBit_one {n : Nat} (w : BitVec 1) (a : BitVec n) : (w ++ a).toNat.testBit n = w.getLsbD 0 :=
  getLsbD_append_flag w a

theorem testBit_write {n : Nat} (w b : BitVec 1) (a : BitVec n) : (w ++ b ++ a).toNat.testBit (n + 1) = w.getLsbD 0 :=
  getLsbD_append_flag₂ w b a

theorem testBit_burst {n : Nat} (w b : BitVec 1) (a : BitVec n) : (w ++ b ++ a).toNat.testBit n = b.getLsbD 0 :=
  getLsbD_append_flag₁ w b a

/-- One flag bit above the address (S7). -/
theorem simple_one (w : BitVec 1) (a : BitVec 7) (rest : List Byte) :
    (headOf false (.frame (headerS7 w a ++ rest))).testBit 7 = w.getLsbD 0 := testBit_one w a

/-- Two flag bits above the address (S6B). -/
theorem simple_two (w b : BitVec 1) (a : BitVec 6) (rest : List Byte) :
    (headOf false (.frame (headerS6B w b a ++ rest))).testBit 7 = w.getLsbD 0 ∧
    (headOf false (.frame (headerS6B w b a ++ rest))).testBit 6 = b.getLsbD 0 :=
  ⟨testBit_write w b a, testBit_burst w b a⟩

/-- One flag bit above the address (X15). -/
theorem extended_one (w : BitVec 1) (a : BitVec 15) (rest : List Byte) :
    (headOf true (.frame (headerX15 w a ++ rest))).testBit 15 = w.getLsbD 0 := by
  rw [headerX15, headOf_extended]; exact testBit_one w a

/-- Two flag bits above the address (X14B). -/
theorem extended_two (w b : BitVec 1) (a : BitVec 14) (rest : List Byte) :
    (headOf true (.frame (headerX14B w b a ++ rest))).testBit 15 = w.getLsbD 0 ∧
    (headOf true (.frame (headerX14B w b a ++ rest))).testBit 14 = b.getLsbD 0 := by
  rw [headerX14B, headOf_extended]; exact ⟨testBit_write w b a, testBit_burst w b a⟩

theorem forall_two {P : Nat × Bool → Prop} {x y : Nat × Bool} (hx : P x) (hy : P y) : ∀ kb ∈ [x, y], P kb := by
  simp [hx, hy]

theorem forall_one {P : Nat × Bool → Prop} {x : Nat × Bool} (hx : P x) : ∀ kb ∈ [x], P kb := by
  simp [hx]

theorem rdS7 (a : BitVec 7) (p : Datum) : Statement (.rdS7 a p) :=
  forall_one (simple_one 0#1 a p.wire)

theorem wrS7 (a : BitVec 7) (p : Datum) : Statement (.wrS7 a p) :=
  forall_one (simple_one 1#1 a p.wire)

theorem rdS6B (a : BitVec 6) (p : Datum) : Statement (.rdS6B a p) :=
  forall_two (simple_two 0#1 0#1 a p.wire).1 (simple_two 0#1 0#1 a p.wire).2

theorem wrS6B (a : BitVec 6) (p : Datum) : Statement (.wrS6B a p) :=
  forall_two (simple_two 1#1 0#1 a p.wire).1 (simple_two 1#1 0#1 a p.wire).2

theorem rdbS6B (a : BitVec 6) (p : Payload) : Statement (.rdbS6B a p) :=
  forall_two (simple_two 0#1 1#1 a p.wire).1 (simple_two 0#1 1#1 a p.wire).2

theorem wrbS6B (a : BitVec 6) (p : Payload) : Statement (.wrbS6B a p) :=
  forall_two (simple_two 1#1 1#1 a p.wire).1 (simple_two 1#1 1#1 a p.wire).2

theorem rdX15 (a : BitVec 15) (p : Datum) : Statement (.rdX15 a p) :=
  forall_one (extended_one 0#1 a p.wire)

theorem wrX15 (a : BitVec 15) (p : Datum) : Statement (.wrX15 a p) :=
  forall_one (extended_one 1#1 a p.wire)

theorem rdX14B (a : BitVec 14) (p : Datum) : Statement (.rdX14B a p) :=
  forall_two (extended_two 0#1 0#1 a p.wire).1 (extended_two 0#1 0#1 a p.wire).2

theorem wrX14B (a : BitVec 14) (p : Datum) : Statement (.wrX14B a p) :=
  forall_two (extended_two 1#1 0#1 a p.wire).1 (extended_two 1#1 0#1 a p.wire).2

theorem rdbX14B (a : BitVec 14) (p : Payload) : Statement (.rdbX14B a p) :=
  forall_two (extended_two 0#1 1#1 a p.wire).1 (extended_two 0#1 1#1 a p.wire).2

theorem wrbX14B (a : BitVec 14) (p : Payload) : Statement (.wrbX14B a p) :=
  forall_two (extended_two 1#1 1#1 a p.wire).1 (extended_two 1#1 1#1 a p.wire).2

theorem configure (c : CandidateMode) : Statement (.configure c) :=
  forall_two (show Nat.testBit (0#2 : BitVec 2).toNat 1 = false by decide)
    (show Nat.testBit (0#2 : BitVec 2).toNat 0 = false by decide)

theorem encode (f : Frame) : Statement (.encode f) :=
  forall_two (show Nat.testBit (1#2 : BitVec 2).toNat 1 = false by decide)
    (show Nat.testBit (1#2 : BitVec 2).toNat 0 = true by decide)

theorem decodeResponse (raw : List Byte) : Statement (.decodeResponse raw) :=
  forall_two (show Nat.testBit (2#2 : BitVec 2).toNat 1 = true by decide)
    (show Nat.testBit (2#2 : BitVec 2).toNat 0 = false by decide)

end Sys2Proof.Laws.RowBits
end

