-- ==== Sys2Proof/Tests/Slice0.lean ====
section
/-! SUPPORT. Tests on fixed values, and for each statement a case that meets its hypotheses.

Expected values are those of spec/95_test_vectors.md (the section is named), or were worked out by hand from the rule named. -/

namespace Sys2Proof.Tests

open Sys2Proof Sys2Proof.Machine

def s7w8 : Mode := ⟨false, false, .w8⟩
def s7w16 : Mode := ⟨false, false, .w16⟩
def s6w8 : Mode := ⟨false, true, .w8⟩
def s6w16 : Mode := ⟨false, true, .w16⟩
def x15w8 : Mode := ⟨true, false, .w8⟩
def x15w16 : Mode := ⟨true, false, .w16⟩
def x14w8 : Mode := ⟨true, true, .w8⟩
def x14w16 : Mode := ⟨true, true, .w16⟩

/-- A block in a session of the mode, nothing offered. -/
def inMode (m : Mode) : State := ⟨some m, [], none⟩

/-- A block with one input waiting. -/
def offered (session : Option Mode) (i : Input) : State := ⟨session, [i], none⟩

def after (o : Host.Outcome State Fault Refusal) : Option State :=
  match o with
  | .next t => some t
  | _ => none

def okBytes (out : List Byte) : Option Response := some ⟨.ok, some (.bytes out)⟩
def okWords (ws : List Nat) : Option Response := some ⟨.ok, some (.words ws)⟩
def failed (st : Status) : Option Response := some ⟨st, none⟩

/-- The response of an instruction in a session. -/
def responseOf (i : Instr) (m : Mode) : Option Response := (after (exec i (inMode m))).bind State.response

/-! ## WellFormed: each check refuses an ill-formed term (R78: a burst has two or more words) -/

theorem test_wellFormed_refuses_rdbS6B : (Instr.rdbS6B 0 (.bytes [0])).wellFormed = false := by decide
theorem test_wellFormed_refuses_wrbS6B : (Instr.wrbS6B 0 (.words [0])).wellFormed = false := by decide
theorem test_wellFormed_refuses_rdbX14B : (Instr.rdbX14B 0 (.words [])).wellFormed = false := by decide
theorem test_wellFormed_refuses_wrbX14B : (Instr.wrbX14B 0 (.bytes [])).wellFormed = false := by decide
theorem test_wellFormed_accepts_two_words : (Instr.wrbX14B 0 (.bytes [0, 0])).wellFormed = true := by decide

/-! ## Decoding: one word of every row, bit by bit from R71, R77 and R82 -/

theorem test_decode_rdS7 : decode (some s7w8) (.frame [0b01010101, 0]) = .ok (.rdS7 0x55 (.byte 0)) := by decide
theorem test_decode_wrS7 : decode (some s7w16) (.frame [0b10101010, 0xBE, 0xEF]) = .ok (.wrS7 0x2A (.word 0xBEEF)) := by
  decide
theorem test_decode_rdS6B : decode (some s6w8) (.frame [0b00010101, 0]) = .ok (.rdS6B 0x15 (.byte 0)) := by decide
theorem test_decode_wrS6B : decode (some s6w16) (.frame [0b10111111, 0x12, 0x34]) = .ok (.wrS6B 0x3F (.word 0x1234)) := by
  decide
theorem test_decode_rdbS6B :
    decode (some s6w8) (.frame [0b01010101, 0, 0, 0]) = .ok (.rdbS6B 0x15 (.bytes [0, 0, 0])) := by decide
theorem test_decode_wrbS6B :
    decode (some s6w16) (.frame [0b11010101, 0xBE, 0xEF, 0xBE, 0x10]) = .ok (.wrbS6B 0x15 (.words [0xBEEF, 0xBE10])) := by
  decide
theorem test_decode_rdX15 :
    decode (some x15w8) (.frame [0b01000001, 0b00000010, 7]) = .ok (.rdX15 0x4102 (.byte 7)) := by decide
theorem test_decode_wrX15 :
    decode (some x15w16) (.frame [0b11111111, 0b11111110, 0, 1]) = .ok (.wrX15 0x7FFE (.word 1)) := by decide
theorem test_decode_rdX14B :
    decode (some x14w16) (.frame [0b00100000, 0b00010101, 0, 0]) = .ok (.rdX14B 0x2015 (.word 0)) := by decide
theorem test_decode_wrX14B :
    decode (some x14w8) (.frame [0b10100000, 0b00010101, 0xA5]) = .ok (.wrX14B 0x2015 (.byte 0xA5)) := by decide
theorem test_decode_rdbX14B :
    decode (some x14w8) (.frame [0b01000001, 0b00000010, 0, 0]) = .ok (.rdbX14B 0x102 (.bytes [0, 0])) := by decide
theorem test_decode_wrbX14B :
    decode (some x14w16) (.frame [0b11000000, 0b00010000, 0xAA, 0x10, 0xAA, 0x11])
      = .ok (.wrbX14B 0x10 (.words [0xAA10, 0xAA11])) := by decide

/-- Operand ports that all hold something. -/
def ports : Operand := ⟨⟨true, false, 12⟩, ⟨3, true, false, [9]⟩, [0x55]⟩

theorem test_decode_operations :
    decode none (.command 0b00 ports) = .ok (.configure ⟨true, false, 12⟩) ∧
    decode none (.command 0b01 ports) = .ok (.encode ⟨3, true, false, [9]⟩) ∧
    decode none (.command 0b10 ports) = .ok (.decodeResponse [0x55]) ∧
    decode none (.command 0b11 ports) = .error .reservedOp := by decide

/-- R80 and 95 section 2.6: the bytes of one mode are malformed, or another frame, under another. -/
theorem test_decode_rejects_malformed :
    decode (some s6w8) (.frame [0xD5, 0xA5]) = .error .burstMismatch ∧
    decode (some s6w8) (.frame [0x95, 0xA5, 0x5A]) = .error .burstMismatch ∧
    decode (some s7w8) (.frame [0xD5, 0xA5]) = .ok (.wrS7 0x55 (.byte 0xA5)) ∧
    decode (some s7w8) (.frame [0x15]) = .error .noWord ∧
    decode (some x14w16) (.frame [0xC0, 0x10, 0xAA]) = .error .partialWord ∧
    decode (some x14w16) (.frame [0xC0]) = .error .shortHeader ∧
    decode none (.frame [0xD5, 0xA5]) = .error .noMode := by decide

/-- The words of the opcode table, as log 8 reads them. -/
theorem test_decodeTableWord :
    decodeTableWord 8 0 = some (.configure ⟨false, false, 0⟩) ∧
    decodeTableWord 8 1 = some (.encode ⟨0, false, false, []⟩) ∧
    decodeTableWord 8 2 = some (.decodeResponse []) ∧
    decodeTableWord 8 3 = none ∧
    decodeTableWord 8 0xC0 = some (.wrbS6B 0 (.bytes [0, 0])) ∧
    decodeTableWord 8 0x95 = some (.wrS6B 0x15 (.byte 0)) ∧
    decodeTableWord 16 0x4010 = some (.rdbX14B 0x10 (.bytes [0, 0])) ∧
    decodeTableWord 16 0 = some (.rdX14B 0 (.byte 0)) := by decide

theorem test_withFetchWord_runs_the_word :
    (after (step (State.reset.withFetchWord 16 0xC010))).bind State.response = okBytes [0xC0, 0x10, 0, 0] ∧
    (after (step (State.reset.withFetchWord 8 1))).bind State.response = failed .noSession := by decide

/-! ## One step of each instruction (spec/95_test_vectors.md sections 1 and 2) -/

/-- 2.1. -/
theorem test_configure :
    after (exec (.configure ⟨true, true, 16⟩) State.reset) = some ⟨some x14w16, [], some ⟨.ok, some .nothing⟩⟩ ∧
    after (exec (.configure ⟨false, true, 8⟩) State.reset) = some ⟨some s6w8, [], some ⟨.ok, some .nothing⟩⟩ := by decide

theorem test_configure_errors :
    after (exec (.configure ⟨false, false, 32⟩) State.reset) = some ⟨none, [], failed .unsupportedWidth⟩ ∧
    after (exec (.configure ⟨false, false, 9⟩) State.reset) = some ⟨none, [], failed .unsupportedWidth⟩ ∧
    after (exec (.configure ⟨false, false, 12⟩) (inMode s7w8)) = some ⟨some s7w8, [], failed .alreadyConfigured⟩ := by decide

/-- 1.2, 2.3 and 2.4. -/
theorem test_encode :
    responseOf (.encode ⟨0x10, true, true, [0xAA10, 0xAA11, 0xAA12]⟩) x14w16
      = okBytes [0xC0, 0x10, 0xAA, 0x10, 0xAA, 0x11, 0xAA, 0x12] ∧
    responseOf (.encode ⟨0x3FFF, true, true, [1, 2]⟩) x14w16 = okBytes [0xFF, 0xFF, 0, 1, 0, 2] ∧
    responseOf (.encode ⟨0x40, true, false, [0xA5]⟩) s7w8 = okBytes [0xC0, 0xA5] := by decide

theorem test_encode_errors :
    responseOf (.encode ⟨0x15, true, true, [0xA5]⟩) s7w8 = failed .burstNotSupported ∧
    responseOf (.encode ⟨0x8000, true, false, [0xBEEF, 0xBEEF]⟩) x15w16 = failed .burstNotSupported ∧
    responseOf (.encode ⟨0x7F, true, true, []⟩) s6w8 = failed .addressOutOfRange ∧
    responseOf (.encode ⟨0x40, true, false, [1]⟩) s6w8 = failed .addressOutOfRange ∧
    responseOf (.encode ⟨1, false, false, []⟩) s7w8 = failed .invalidFrame ∧
    responseOf (.encode ⟨1, true, true, [5]⟩) s6w8 = failed .invalidFrame ∧
    responseOf (.encode ⟨1, true, false, [5, 6]⟩) s6w8 = failed .invalidFrame ∧
    responseOf (.encode ⟨1, true, false, [0x100]⟩) s6w8 = failed .invalidFrame := by decide

/-- 2.5. -/
theorem test_decodeResponse :
    responseOf (.decodeResponse [0x00, 0x12, 0x34, 0xFF, 0xFF, 0x00, 0x00, 0x80, 0x01]) s6w16
      = okWords [0x1234, 0xFFFF, 0x0000, 0x8001] ∧
    responseOf (.decodeResponse [0xFF, 0xFF, 1, 2, 3]) x14w8 = okWords [1, 2, 3] ∧
    responseOf (.decodeResponse [0x12, 0x34]) x15w8 = okWords [] := by decide

theorem test_decodeResponse_errors :
    responseOf (.decodeResponse []) s7w8 = failed .malformedResponse ∧
    responseOf (.decodeResponse [0x12]) x15w8 = failed .malformedResponse ∧
    responseOf (.decodeResponse [0x82, 0xCA, 0xFE, 1]) s7w16 = failed .malformedResponse ∧
    after (exec (.decodeResponse [0x82, 0xCA]) State.reset) = some ⟨none, [], failed .noSession⟩ := by decide

/-- 2.2 and 2.3, the rows of RD. -/
theorem test_rd :
    responseOf (.rdS7 0x15 (.byte 0)) s7w8 = okBytes [0x15, 0] ∧
    responseOf (.rdS6B 0x15 (.word 0)) s6w16 = okBytes [0x15, 0, 0] ∧
    responseOf (.rdX15 0x15 (.word 0)) x15w16 = okBytes [0, 0x15, 0, 0] ∧
    responseOf (.rdX14B 0x15 (.byte 0)) x14w8 = okBytes [0, 0x15, 0] := by decide

/-- 1.6, 2.2 and 2.3, the rows of WR. -/
theorem test_wr :
    responseOf (.wrS7 0x7F (.byte 0xA5)) s7w8 = okBytes [0xFF, 0xA5] ∧
    responseOf (.wrS6B 0x3F (.word 0xBEEF)) s6w16 = okBytes [0xBF, 0xBE, 0xEF] ∧
    responseOf (.wrX15 0x0102 (.byte 3)) x15w8 = okBytes [0x81, 2, 3] ∧
    responseOf (.wrX14B 0x3FFF (.word 0xBEEF)) x14w16 = okBytes [0xBF, 0xFF, 0xBE, 0xEF] := by decide

/-- 2.2, the rows of RDB. -/
theorem test_rdb :
    responseOf (.rdbS6B 0x15 (.bytes [0, 0, 0])) s6w8 = okBytes [0x55, 0, 0, 0] ∧
    responseOf (.rdbX14B 0x15 (.words [0, 0, 0])) x14w16 = okBytes [0x40, 0x15, 0, 0, 0, 0, 0, 0] ∧
    responseOf (.rdbS6B 0x15 (.bytes [0, 0, 0])) s7w8 = failed .burstNotSupported := by decide

/-- 2.2 and 2.3, the rows of WRB. -/
theorem test_wrb :
    responseOf (.wrbS6B 0x15 (.words [0xBEEF, 0xBE10])) s6w16 = okBytes [0xD5, 0xBE, 0xEF, 0xBE, 0x10] ∧
    responseOf (.wrbX14B 0x3FFF (.bytes [1, 2])) x14w8 = okBytes [0xFF, 0xFF, 1, 2] ∧
    responseOf (.wrbX14B 0x15 (.words [0xBEEF, 0xBE10])) x15w16 = failed .burstNotSupported := by decide

/-! ## What a frame means, and the reference devices -/

/-- 2.6. -/
theorem test_parseFrame :
    parseFrame s6w8 [0xD5, 0xA5, 0x5A] = some ⟨0x15, true, true, [0xA5, 0x5A]⟩ ∧
    parseFrame x15w8 [0xFF, 0xFF, 0x5A] = some ⟨0x7FFF, true, false, [0x5A]⟩ ∧
    parseFrame s7w8 [0x15] = none := by decide

/-- 1.9: no wrap at the top of the space. -/
theorem test_expand :
    expand ⟨0x3F, true, true, [1, 2]⟩ [] = [⟨0x3F, 1, true⟩, ⟨0x40, 2, true⟩] ∧
    expand ⟨2, false, false, [0]⟩ [0xCA] = [⟨2, 0xCA, false⟩] := by decide

/-- Section 3, P3, the write and the read of the memory device. -/
theorem test_memoryDevice :
    transfer memoryDevice (.start s7w16) ⟨false, false, 16⟩ ⟨0x2A, true, false, [0xBEEF]⟩
      = (⟨s7w16, [(0x2A, 0xBEEF)], [], [⟨0x2A, 0xBEEF, true⟩]⟩, .words [0]) ∧
    (transfer memoryDevice ⟨s7w16, [(0x2A, 0xBEEF)], [], []⟩ ⟨false, false, 16⟩ ⟨0x2A, false, false, [0]⟩).2
      = .words [0xBEEF] := by decide

/-- A far end that never answers. -/
def silentDevice : Device Unit := ⟨id, fun _ _ => ((), none), id⟩

/-- R204 and R184: whole frames one after the other; and no frame after a transport error. -/
theorem test_transferAll :
    transferAll (traced mirrorDevice) ((), []) ⟨false, false, 8⟩
        [⟨2, true, false, [0xCA]⟩, ⟨0x80, true, false, [1]⟩, ⟨0x10, true, false, [0xFE]⟩]
      = (((), [.assertSelect, .send 0x82, .send 0xCA, .deassertSelect, .assertSelect, .send 0x90, .send 0xFE, .deassertSelect]),
          [.words [0xCA], .status .addressOutOfRange, .words [0xFE]]) ∧
    transferAll (traced silentDevice) ((), []) ⟨false, false, 8⟩ [⟨2, true, false, [0xCA]⟩, ⟨0x10, true, false, [0xFE]⟩]
      = (((), [.assertSelect, .send 0x82]), [.transportError]) := by decide

/-! ## Witnesses: for each statement with hypotheses, a case that meets them together, each clause at an edge of its range -/

theorem witness_ResetLeavesNoSessionAndNoResult :
    (⟨some x14w16, [.reset, .reset], okWords [1]⟩ : State).inputs = .reset :: [.reset] := rfl

theorem witness_ResetThenConfigureSucceeds :
    (⟨some s7w8, [.reset, .offer (encode (.configure ⟨true, false, 8⟩)), .reset], none⟩ : State).inputs
      = .reset :: .offer (encode (.configure ⟨true, false, 8⟩)) :: [.reset] ∧
    ((⟨true, false, 8⟩ : CandidateMode).wordWidth = 8 ∨ (⟨true, false, 8⟩ : CandidateMode).wordWidth = 16) ∧
    ((⟨true, false, 16⟩ : CandidateMode).wordWidth = 8 ∨ (⟨true, false, 16⟩ : CandidateMode).wordWidth = 16) := by decide

/-- In a session; without one at the widths 0, 7, 9, 15, 17 (R101) that are refused; and at the two that are taken. -/
theorem witness_ConfigureLatchesTheModeOnce :
    (inMode s7w8).session ≠ none ∧ State.reset.session = none ∧
    (∀ w ∈ [0, 7, 9, 15, 17], (⟨true, true, w⟩ : CandidateMode).wordWidth ≠ 8 ∧ (⟨true, true, w⟩ : CandidateMode).wordWidth ≠ 16) ∧
    (⟨true, true, 8⟩ : CandidateMode).wordWidth = 8 ∧ (⟨true, true, 16⟩ : CandidateMode).wordWidth = 16 := by decide

/-- A step of each of the three kinds, and a CONFIGURE that succeeds. -/
theorem witness_OnlyConfigureBringsInAMode :
    step (inMode s7w8) = .next (inMode s7w8) ∧
    step (offered (some s7w8) .reset) = .next State.reset ∧
    step (offered none (.offer (.command 0#2 ⟨⟨false, true, 8⟩, ⟨0, false, false, []⟩, []⟩)))
      = .next ⟨some s6w8, [], some ⟨.ok, some .nothing⟩⟩ ∧
    exec (.configure ⟨false, true, 8⟩) State.reset = .next ⟨some s6w8, [], some ⟨.ok, some .nothing⟩⟩ ∧
    State.reset.session = (⟨none, [.reset], okWords []⟩ : State).session ∧
    exec (.configure ⟨false, true, 8⟩) ⟨none, [.reset], okWords []⟩ = .next ⟨some s6w8, [.reset], some ⟨.ok, some .nothing⟩⟩ :=
  ⟨rfl, rfl, rfl, rfl, rfl, rfl⟩

theorem witness_SessionHoldsUntilReset :
    (offered (some s7w8) (.offer (encode (.decodeResponse [0])))).session = some s7w8 ∧
    Input.reset ∉ (offered (some s7w8) (.offer (encode (.decodeResponse [0])))).inputs ∧
    core.run 1 (offered (some s7w8) (.offer (encode (.decodeResponse [0])))) = .next ⟨some s7w8, [], okWords []⟩ ∧
    (offered (some s7w8) .reset).inputs = .reset :: [] :=
  ⟨rfl, by decide, rfl, rfl⟩

theorem witness_WithoutASessionOnlyConfigureRuns :
    State.reset.session = none ∧ (∀ c, Instr.encode ⟨2, true, false, [0xCA]⟩ ≠ .configure c) ∧
    (∀ c, Instr.decodeResponse [] ≠ .configure c) ∧ (∀ c, Instr.rdbX14B 0 (.bytes []) ≠ .configure c) :=
  ⟨rfl, by simp, by simp, by simp⟩

/-- The largest value of either length. -/
theorem witness_BigEndianReadGivesBackWrite :
    ((1 = 1 ∨ 1 = 2) ∧ 255 < 2 ^ (8 * 1)) ∧ ((2 = 1 ∨ 2 = 2) ∧ 65535 < 2 ^ (8 * 2)) ∧ 255 < 2 ^ 8 ∧ 65535 < 2 ^ 16 := by decide

/-- No session; and in one, a frame that is encoded and one that is not. -/
theorem witness_EncodeIsThePureFunctionUnderTheSession :
    State.reset.session = none ∧ (inMode s7w8).session = some s7w8 ∧
    encodeFrame (candidate s7w8) ⟨0x7F, true, false, [0xA5]⟩ = .ok [0xFF, 0xA5] ∧
    encodeFrame (candidate s7w8) ⟨0x80, true, false, [0xA5]⟩ = .error .addressOutOfRange := by decide

/-- Both sides of the equivalence occur at the top address of a format. -/
theorem witness_EncodeAnswersBytesExactlyOnWellFormedFrames :
    (inMode s6w8).session = some s6w8 ∧
    responseOf (.encode ⟨0x3F, true, true, [1, 255]⟩) s6w8 = okBytes [0xFF, 1, 255] ∧
    ¬(0x40 < 2 ^ addressBits s6w8) := by decide

/-- Each of the three clauses: no burst by the flag alone and by the count alone; the first address outside; and then no word, a
flag that disagrees either way, and the first value that is no word. -/
theorem witness_EncodeRaisesTheFirstErrorThatApplies :
    (inMode s7w8).session = some s7w8 ∧ (inMode s6w8).session = some s6w8 ∧
    (∀ f ∈ ([⟨0x80, true, true, [1]⟩, ⟨0, true, false, [1, 2]⟩] : List Frame),
      s7w8.burstCapable = false ∧ (f.isBurst = true ∨ 1 < f.values.length)) ∧
    ¬(s6w8.burstCapable = false) ∧ 2 ^ addressBits s6w8 ≤ 0x40 ∧ ¬(2 ^ addressBits s6w8 ≤ 0x3F) ∧
    ([] : List Nat).length = 0 ∧ ¬(true = true ↔ 1 < [5].length) ∧ ¬(false = true ↔ 1 < [5, 6].length) ∧
    (∃ v ∈ [0x100], 2 ^ wordBits s6w8 ≤ v) := by decide

theorem witness_EncodeEmitsHeaderThenWords :
    (inMode s7w8).session = some s7w8 ∧ wellFormedFrame s7w8 ⟨0x7F, true, false, [0xA5]⟩ = true ∧
    (inMode x14w16).session = some x14w16 ∧ wellFormedFrame x14w16 ⟨0x3FFF, false, true, [0, 65535]⟩ = true := by decide

/-- In a format with a burst flag, and in one without, at an address with its top bit set. -/
theorem witness_FlagsStandInTheFirstByte :
    (inMode s6w8).session = some s6w8 ∧ wellFormedFrame s6w8 ⟨0x15, true, true, [0xA5, 0x5A]⟩ = true ∧
    s6w8.burstCapable = true ∧
    (inMode x15w8).session = some x15w8 ∧ wellFormedFrame x15w8 ⟨0x7FFF, true, false, [0xA5]⟩ = true ∧
    x15w8.burstCapable = false := by decide

/-- The last word of a burst, in either width. -/
theorem witness_EveryWordTakesItsOwnBytes :
    (inMode s6w16).session = some s6w16 ∧ wellFormedFrame s6w16 ⟨0x15, true, true, [0xBEEF, 0xBE10]⟩ = true ∧
    [0xBEEF, 0xBE10][1]? = some 0xBE10 ∧
    (inMode s6w8).session = some s6w8 ∧ wellFormedFrame s6w8 ⟨0x15, true, true, [0xA5, 0xFF]⟩ = true ∧
    [0xA5, 0xFF][1]? = some 0xFF := by decide

theorem witness_CountIsEnforcedWithoutBurst :
    s7w8.burstCapable = false ∧ 1 < (⟨0x80, true, false, [0xA5, 0xA5]⟩ : Frame).values.length ∧
    (inMode s7w8).session = some s7w8 := by decide

theorem witness_UnsupportedWidthIsGuarded :
    (∀ w ∈ [0, 7, 9, 15, 17], (⟨false, false, w⟩ : CandidateMode).wordWidth ≠ 8 ∧ (⟨false, false, w⟩ : CandidateMode).wordWidth ≠ 16) ∧
    State.reset.session = none := by decide

theorem witness_UnsupportedWidthIsGuarded_raised :
    exec (.configure ⟨false, false, 12⟩) State.reset = .next ⟨none, [], failed .unsupportedWidth⟩ ∧
    ∃ r, (⟨none, [], failed .unsupportedWidth⟩ : State).response = some ⟨.unsupportedWidth, r⟩ := ⟨rfl, none, rfl⟩

theorem witness_EveryHeaderPatternIsUsed : 255 < 2 ^ (8 * headerBytes s6w8) ∧ 65535 < 2 ^ (8 * headerBytes x15w16) := by decide

theorem witness_EncodeNeverEmitsAMalformedFrame :
    encodeFrame (candidate s6w8) ⟨1, true, true, [5, 6]⟩ = .ok [0xC1, 5, 6] ∧ s6w8.burstCapable = true ∧
    encodeFrame (candidate s7w16) ⟨1, true, false, [0x203]⟩ = .ok [0x81, 2, 3] ∧ s7w16.burstCapable = false := by decide

theorem witness_SingleWriteEmitsItsBytes :
    (inMode s7w8).session = some ⟨false, false, (Datum.byte 0xFF).width⟩ ∧
    (inMode s6w16).session = some ⟨false, true, (Datum.word 0xFFFF).width⟩ ∧
    (inMode x15w8).session = some ⟨true, false, (Datum.byte 0).width⟩ ∧
    (inMode x14w16).session = some ⟨true, true, (Datum.word 0).width⟩ := by decide

theorem witness_SingleReadEmitsItsBytes :
    (inMode s7w16).session = some ⟨false, false, (Datum.word 0xFFFF).width⟩ ∧
    (inMode s6w8).session = some ⟨false, true, (Datum.byte 0xFF).width⟩ ∧
    (inMode x15w16).session = some ⟨true, false, (Datum.word 0).width⟩ ∧
    (inMode x14w8).session = some ⟨true, true, (Datum.byte 0).width⟩ ∧
    ([0x77, 0x88] : List Byte).length = headerBytes x14w8 ∧ 255 < 2 ^ wordBits x14w8 := by decide

/-- Two words, one word, and a session that cannot burst. -/
theorem witness_BurstWriteEmitsItsBytes :
    (inMode s6w8).session = some ⟨false, true, (Payload.bytes [1, 2]).width⟩ ∧ 2 ≤ (Payload.bytes [1, 2]).values.length ∧
    (inMode x14w16).session = some ⟨true, true, (Payload.words [1, 2]).width⟩ ∧ 2 ≤ (Payload.words [1, 2]).values.length ∧
    (inMode s6w8).session = some ⟨false, true, (Payload.bytes [1]).width⟩ ∧ (Payload.bytes [1]).values.length < 2 ∧
    (inMode x14w16).session = some ⟨true, true, (Payload.words []).width⟩ ∧ (Payload.words []).values.length < 2 ∧
    (inMode x15w16).session = some x15w16 ∧ x15w16.burstCapable = false := by decide

/-- Two placeholders and as many words read back, one placeholder, and a session that cannot burst. -/
theorem witness_BurstReadEmitsItsBytes :
    (inMode s6w16).session = some ⟨false, true, (Payload.words [0, 0]).width⟩ ∧ 2 ≤ (Payload.words [0, 0]).values.length ∧
    [0xAA10, 0xAA11].length = (Payload.words [0, 0]).values.length ∧
    (inMode x14w8).session = some ⟨true, true, (Payload.bytes [0, 0]).width⟩ ∧ 2 ≤ (Payload.bytes [0, 0]).values.length ∧
    [1, 2].length = (Payload.bytes [0, 0]).values.length ∧
    (inMode s6w16).session = some ⟨false, true, (Payload.words [0]).width⟩ ∧ (Payload.words [0]).values.length < 2 ∧
    (inMode x14w8).session = some ⟨true, true, (Payload.bytes [0]).width⟩ ∧ (Payload.bytes [0]).values.length < 2 ∧
    (inMode s7w8).session = some s7w8 ∧ s7w8.burstCapable = false ∧
    ([0x77] : List Byte).length = headerBytes s6w16 ∧ (∀ w ∈ [0, 65535], w < 2 ^ wordBits s6w16) := by decide

theorem witness_FrameKindsEmitTheirOwnEncoding :
    (Instr.wrbX14B 0x3FFF (.words [1, 2])).wellFormed = true ∧ (Instr.wrbX14B 0x3FFF (.words [1, 2])).frameMode = some x14w16 ∧
    (inMode x14w16).session = some x14w16 := by decide

theorem witness_ShorthandFramesAreWellFormed :
    0x3F < 2 ^ addressBits s6w8 ∧ 255 < 2 ^ wordBits s6w8 ∧ [7, 255] ≠ [] ∧ (s6w8.burstCapable = true ∨ [7, 255].length = 1) ∧
    (∀ v ∈ [7, 255], v < 2 ^ wordBits s6w8) ∧ s6w8.burstCapable = true ∧ 2 ≤ [7, 255].length ∧ 2 ≤ 2 ∧
    0x7F < 2 ^ addressBits s7w8 ∧ (s7w8.burstCapable = true ∨ [255].length = 1) := by decide

/-- No session; a header alone, and two words of the larger width; and both malformed lengths. -/
theorem witness_DecodeResponseReturnsTheWords :
    State.reset.session = none ∧ [0x12].length < headerBytes x15w8 ∧ ([0x82, 0xCA].length - headerBytes s7w16) % wordBytes s7w16 ≠ 0 ∧
    (inMode s7w8).session = some s7w8 ∧ headerBytes s7w8 ≤ [0x55].length ∧ ([0x55].length - headerBytes s7w8) % wordBytes s7w8 = 0 ∧
    s7w8.wordWidth = .w8 ∧
    (inMode s7w16).session = some s7w16 ∧ headerBytes s7w16 ≤ [0x82, 0xCA, 0xFE, 1, 2].length ∧
    ([0x82, 0xCA, 0xFE, 1, 2].length - headerBytes s7w16) % wordBytes s7w16 = 0 ∧ s7w16.wordWidth = .w16 ∧
    ([0x82, 0xCA, 0xFE, 1, 2] : List Byte)[headerBytes s7w16 + 2 * 1]? = some 1 ∧
    ([0x82, 0xCA, 0xFE, 1, 2] : List Byte)[headerBytes s7w16 + 2 * 1 + 1]? = some 2 := by decide

/-- Both sides of the equivalence, by a short response and by a partial word. -/
theorem witness_MalformedResponseIsByLengthAlone :
    (inMode x15w8).session = some x15w8 ∧ [0x12].length < headerBytes x15w8 ∧
    (inMode s7w16).session = some s7w16 ∧ ([0x82, 0xCA].length - headerBytes s7w16) % wordBytes s7w16 ≠ 0 ∧
    ¬([0x82, 0xCA, 0xFE].length < headerBytes s7w16 ∨ ([0x82, 0xCA, 0xFE].length - headerBytes s7w16) % wordBytes s7w16 ≠ 0) := by
  decide

theorem witness_HeaderOnlyResponseDecodesToNoWords :
    (inMode x15w8).session = some x15w8 ∧ [0x12, 0x34].length = headerBytes x15w8 := by decide

/-- Two headers that differ, in X14B/8 and in X15/8. -/
theorem witness_DecodeResponseIgnoresHeaderAndBurst :
    (inMode x14w8).session = some ⟨true, true, .w8⟩ ∧ (inMode x15w8).session = some ⟨true, false, .w8⟩ ∧
    ([0xFF, 0xFF, 1, 2, 3] : List Byte).length = ([0, 0x77, 1, 2, 3] : List Byte).length ∧
    ([0xFF, 0xFF, 1, 2, 3] : List Byte).drop (headerBytes x14w8) = ([0, 0x77, 1, 2, 3] : List Byte).drop (headerBytes x14w8) ∧
    exec (.decodeResponse [0xFF, 0xFF, 1, 2, 3]) (inMode x14w8) = .next ⟨some x14w8, [], okWords [1, 2, 3]⟩ ∧
    exec (.decodeResponse [0, 0x77, 1, 2, 3]) (inMode x15w8) = .next ⟨some x15w8, [], okWords [1, 2, 3]⟩ :=
  ⟨rfl, rfl, rfl, rfl, rfl, rfl⟩

theorem witness_DecodedWordsAccountForTheResponse :
    (inMode s7w16).session = some s7w16 ∧
    exec (.decodeResponse [0x82, 0xFF, 0xFF]) (inMode s7w16) = .next ⟨some s7w16, [], okWords [0xFFFF]⟩ ∧
    (⟨some s7w16, [], okWords [0xFFFF]⟩ : State).response = some ⟨.ok, some (.words [0xFFFF])⟩ := ⟨rfl, rfl, rfl⟩

/-- A write and a read frame (R157). -/
theorem witness_MirroredFrameDecodesToItsValues :
    (inMode x15w8).session = some x15w8 ∧ wellFormedFrame x15w8 ⟨0x7FFF, true, false, [0x5A]⟩ = true ∧
    (inMode s6w16).session = some s6w16 ∧ wellFormedFrame s6w16 ⟨0x3F, false, true, [0x1234, 0xFFFF, 0, 0x8001]⟩ = true := by decide

theorem witness_ParseFrameInvertsEncode :
    wellFormedFrame s6w8 ⟨0x15, true, true, [0xA5, 0x5A]⟩ = true ∧
    parseFrame s7w8 [0xD5, 0xA5] = some ⟨0x55, true, false, [0xA5]⟩ := by decide

/-- A frame kind under its mode, and an operation under none. -/
theorem witness_DecodeOfEncodeIsTheInstruction :
    (Instr.rdbS6B 0x3F (.words [0, 0xFFFF])).wellFormed = true ∧
    (∀ m, (Instr.rdbS6B 0x3F (.words [0, 0xFFFF])).frameMode = some m → some s6w16 = some m) ∧
    (Instr.configure ⟨true, true, 12⟩).wellFormed = true ∧
    (∀ m, (Instr.configure ⟨true, true, 12⟩).frameMode = some m → (none : Option Mode) = some m) :=
  ⟨rfl, fun _ h => h, rfl, fun _ h => by cases h⟩

theorem witness_DecodedFramesEncodeToThemselves :
    decode (some s7w8) (.frame [0xFF, 0xA5]) = .ok (.wrS7 0x7F (.byte 0xA5)) ∧
    decode none (.command 2#2 ports) = .ok (.decodeResponse [0x55]) := by decide

theorem witness_StatusesAreTheTable :
    exec (.configure ⟨false, false, 8⟩) (inMode s7w8) = .next ⟨some s7w8, [], failed .alreadyConfigured⟩ ∧
    failed .alreadyConfigured = some ⟨.alreadyConfigured, none⟩ ∧
    exec (.rdbS6B 0 (.bytes [0, 0])) (inMode s7w8) = .next ⟨some s7w8, [], failed .burstNotSupported⟩ ∧
    failed .burstNotSupported = some ⟨.burstNotSupported, none⟩ ∧
    (offered none (.offer (.command 3#2 ports))).inputs = .offer (.command 3#2 ports) :: [] := ⟨rfl, rfl, rfl, rfl, rfl⟩

/-- A status of each kind of operation, and the next operation after it. -/
theorem witness_RaisedStatusChangesNothingElse :
    exec (.encode ⟨0x40, true, false, [1]⟩) (inMode s6w8) = .next ⟨some s6w8, [], failed .addressOutOfRange⟩ ∧
    failed .addressOutOfRange = some ⟨.addressOutOfRange, none⟩ ∧ Status.addressOutOfRange ≠ .ok := ⟨rfl, rfl, by decide⟩

theorem witness_FailedOperationLeavesNoTrace :
    exec (.decodeResponse []) (inMode s6w8) = .next ⟨some s6w8, [], failed .malformedResponse⟩ ∧
    failed .malformedResponse = some ⟨.malformedResponse, none⟩ ∧ Status.malformedResponse ≠ .ok := ⟨rfl, rfl, by decide⟩

theorem witness_AnswerDependsOnSessionAndOperandAlone :
    (⟨some s7w8, [.reset], okWords [1]⟩ : State).session = (inMode s7w8).session := rfl

theorem witness_OperationsButConfigureWriteNoState :
    (∀ c, Instr.wrS7 2 (.byte 0xCA) ≠ .configure c) ∧
    exec (.wrS7 2 (.byte 0xCA)) (inMode s7w8) = .next ⟨some s7w8, [], okBytes [0x82, 0xCA]⟩ := ⟨by simp, rfl⟩

theorem witness_StepRunsTheDecodedInstruction :
    (offered (some s7w8) (.offer (.frame [0x82, 0xCA]))).inputs = .offer (.frame [0x82, 0xCA]) :: [] ∧
    decode (offered (some s7w8) (.offer (.frame [0x82, 0xCA]))).session (.frame [0x82, 0xCA]) = .ok (.wrS7 2 (.byte 0xCA)) := by
  decide

theorem witness_ReservedOpRaisesIllegalOperation :
    (offered none (.offer (.command 3#2 ports))).inputs = .offer (.command 3#2 ports) :: [] := rfl

/-- A malformed frame in a session, a good one in a session, and one without a session. -/
theorem witness_WireFramesStopExactlyWhenMalformed :
    (offered (some s6w8) (.offer (.frame [0xD5, 0xA5]))).inputs = .offer (.frame [0xD5, 0xA5]) :: [] ∧
    (offered (some s6w8) (.offer (.frame [0xD5, 0xA5]))).session = some s6w8 ∧ parseFrame s6w8 [0xD5, 0xA5] = none ∧
    parseFrame s6w8 [0xD5, 0xA5, 0x5A] ≠ none ∧ (offered none (.offer (.frame [0xD5]))).session = none := by decide

theorem witness_NothingHappensUnlessOffered : (inMode s7w8).inputs = [] := rfl

theorem witness_TableWordIsPerformedNext :
    decodeTableWord 16 0xC010 = some (.wrbX14B 0x10 (.bytes [0, 0])) ∧
    (Instr.wrbX14B 0x10 (.bytes [0, 0])).frameMode = some x14w8 ∧
    decodeTableWord 8 2 = some (.decodeResponse []) ∧ (Instr.decodeResponse []).frameMode = none := by decide

theorem witness_EveryStepAnswersSoundly :
    step (offered (some s7w8) (.offer (.frame [0x82, 0xCA]))) = .next ⟨some s7w8, [], okBytes [0x82, 0xCA]⟩ := rfl

/-- A write, and a read with as many words read back. -/
theorem witness_ExpansionWalksTheAddresses :
    ((⟨0x3F, true, true, [1, 2]⟩ : Frame).isWrite = false → ([] : List Nat).length = [1, 2].length) ∧ [1, 2][1]? = some 2 ∧
    ((⟨0x3F, false, true, [0, 0]⟩ : Frame).isWrite = false → [8, 9].length = [0, 0].length) ∧ [8, 9][1]? = some 9 := by decide

/-- A frame whose last word is the first one outside the space, and one whose last word is the top address. -/
theorem witness_OverflowingFrameIsEncodedUnwrapped :
    (inMode s6w8).session = some s6w8 ∧ wellFormedFrame s6w8 ⟨0x3F, true, true, [1, 2]⟩ = true ∧
    2 ^ addressBits s6w8 ≤ 0x3F + [1, 2].length - 1 ∧
    wellFormedFrame s6w8 ⟨0x3E, true, true, [1, 2]⟩ = true ∧ ¬(2 ^ addressBits s6w8 ≤ 0x3E + [1, 2].length - 1) := by decide

theorem witness_TransferReturnsNWords :
    wellFormedFrame s7w16 ⟨0x2A, false, false, [0]⟩ = true ∧
    encodeFrame (candidate s7w16) ⟨0x80, false, false, [0]⟩ = .error .addressOutOfRange := by decide

theorem witness_XferOnTheBlockIsTheTransfer :
    (⟨some s7w8, linesXfer mirrorDevice () s7w8 ⟨2, true, false, [0xCA]⟩ ++ [.reset], none⟩ : State).session = some s7w8 ∧
    (⟨some s7w8, linesXfer mirrorDevice () s7w8 ⟨2, true, false, [0xCA]⟩ ++ [.reset], none⟩ : State).inputs
      = linesXfer mirrorDevice () s7w8 ⟨2, true, false, [0xCA]⟩ ++ [.reset] ∧
    (transfer mirrorDevice () (candidate s7w8) ⟨2, true, false, [0xCA]⟩).2 = .words [0xCA] := by decide

theorem witness_MirrorTransferReturnsTheValues : wellFormedFrame s6w16 ⟨0x3F, false, true, [0x1234, 0xFFFF]⟩ = true := by decide

theorem witness_MemoryDeviceReadsBackWhatWasWritten :
    Memory.wf (MemoryDevice.start s6w16).mem = true ∧
    wellFormedFrame (MemoryDevice.start s6w16).mode ⟨0x3F, true, true, [0, 0xBEEF]⟩ = true ∧
    wellFormedFrame (MemoryDevice.start s6w16).mode ⟨0x3F, false, true, [7, 7]⟩ = true ∧ [7, 7].length = [0, 0xBEEF].length := by
  decide

theorem witness_MemoryDeviceKeepsCanonicalMemory : Memory.wf [(2, 0xCA), (0x10, 0xFE)] = true := by decide

/-- A sequence that completes, and one that a transport error ends. -/
theorem witness_FramesDoNotOverlapOnTheLink :
    TransferEnd.transportError ∉
      (transferAll (traced mirrorDevice) ((), []) (candidate s7w8) [⟨2, true, false, [0xCA]⟩, ⟨0x80, true, false, [1]⟩]).2 ∧
    TransferEnd.transportError ∈
      (transferAll (traced silentDevice) ((), []) (candidate s7w8) [⟨0x80, true, false, [1]⟩, ⟨2, true, false, [0xCA]⟩]).2 := by decide

/-- A bridge that logs what it is sent and answers zeros: conformant in every state. -/
def zeroBridge (m : Mode) : Device (List Byte × List BusTransaction) :=
  ⟨fun d => ([], d.2), fun d b => ((d.1 ++ [b], d.2), some 0#8),
   fun d => (d.1, d.2 ++ expand (frameOfBytes m d.1) (readWords m (List.replicate d.1.length 0#8)))⟩

theorem exchangeAll_zeroBridge (m : Mode) (out : List Byte) (d : List Byte × List BusTransaction) :
    exchangeAll (zeroBridge m) d out = ((d.1 ++ out, d.2), some (List.replicate out.length 0#8)) := by
  induction out generalizing d with
  | nil => simp [exchangeAll]
  | cons b rest ih => rw [exchangeAll]; simp only [zeroBridge] at ih ⊢; rw [ih]; simp [List.replicate_succ]

theorem zeroBridge_conformant (m : Mode) : Conformant (zeroBridge m) m (fun _ => True) Prod.snd := by
  intro d f ws _ hf _ ht
  refine ⟨trivial, ?_⟩
  have hd : decodeIn m (List.replicate (emit m f).length 0#8) = .ok (readWords m (List.replicate (emit m f).length 0#8)) :=
    decodeIn_of_emit_length (f := f) (by simp)
  simp only [transfer, encodeFrame_candidate, encodeIn_of_wellFormed hf, exchangeAll_zeroBridge, decodeRaw_candidate, hd] at ht ⊢
  cases ht
  simp [zeroBridge, frameOfBytes_of_emit hf]

/-- A write at the bottom of the space, then a read at its top. -/
theorem witness_ConformantBridgeShowsTheExpansions :
    Conformant (zeroBridge s7w8) s7w8 (fun _ => True) Prod.snd ∧
    (∀ f ∈ ([⟨0, true, false, [0xCA]⟩, ⟨0x7F, false, false, [0]⟩] : List Frame),
      wellFormedFrame s7w8 f = true ∧ f.address + f.values.length - 1 < 2 ^ addressBits s7w8) ∧
    (transferAll (zeroBridge s7w8) ([], []) (candidate s7w8) [⟨0, true, false, [0xCA]⟩, ⟨0x7F, false, false, [0]⟩]).2
      = [[0], [0]].map TransferEnd.words := ⟨zeroBridge_conformant s7w8, by decide, by decide⟩

theorem witness_MemoryDeviceIsConformant :
    (MemoryDevice.start s7w16).mode = s7w16 ∧ Memory.fits s7w16 [(0x2A, 0xFFFF)] = true ∧
    wellFormedFrame s7w16 ⟨0x2A, false, false, [0]⟩ = true := by decide

end Sys2Proof.Tests
end

section
/-! The constants of the eight modes (spec/10_state.md R22). -/

namespace Sys2Proof.Machine

@[simp] theorem wordBytes_w8 (e b : Bool) : wordBytes ⟨e, b, .w8⟩ = 1 := by
  simp [wordBytes, wordBits, WordWidth.bits]

@[simp] theorem wordBytes_w16 (e b : Bool) : wordBytes ⟨e, b, .w16⟩ = 2 := by
  simp [wordBytes, wordBits, WordWidth.bits]

/-- Settles O7: a combination of the three fields is the candidate of a valid mode; the lengths of a word turn on the width alone, the
constants of the header on the two flags alone, so each row of the table of R22 is one evaluation, with the width left open. -/
theorem modeConstantsAreTheTable : Obligations.ModeConstantsAreTheTable := by
  intro w
  refine ⟨fun e b => toMode_candidate ⟨e, b, w⟩, ?wordBytes, ?wordBitsAndFlagBits, ?S7, ?S6B, ?X15, ?X14B⟩
  case wordBytes =>
    intro e b
    cases w with
    | w8 => exact wordBytes_w8 e b
    | w16 => exact wordBytes_w16 e b
  case wordBitsAndFlagBits =>
    intro e b
    cases w with
    | w8 => exact ⟨rfl, rfl⟩
    | w16 => exact ⟨rfl, rfl⟩
  case S7 => exact ⟨rfl, rfl, rfl, rfl, rfl⟩
  case S6B => exact ⟨rfl, rfl, rfl, rfl, rfl⟩
  case X15 => exact ⟨rfl, rfl, rfl, rfl, rfl⟩
  case X14B => exact ⟨rfl, rfl, rfl, rfl, rfl⟩

end Sys2Proof.Machine
end

section
/-! ENCODE and DECODE_RESPONSE without a session (spec/60_exceptions.md R177), and the bytes of a well-formed frame
(spec/30_encoding.md R70). -/

namespace Sys2Proof.Machine

theorem encodeOperation_of_noSession {s : State} (h : s.session = none) (f : Frame) :
    encodeOperation f s = raise .noSession s := by
  rw [encodeOperation, h]

theorem execDecodeResponse_of_noSession {s : State} (h : s.session = none) (raw : List Byte) :
    execDecodeResponse raw s = .next (raise .noSession s) := by
  rw [execDecodeResponse, h]

/-- Settles O6: an instruction is CONFIGURE, DECODE_RESPONSE or an ENCODE of the frame it issues, and both of the latter look at the
session before their operand. -/
theorem withoutASessionOnlyConfigureRuns : Obligations.WithoutASessionOnlyConfigureRuns := by
  intro i s hs hi
  rcases exec_cases i s with ⟨c, rfl, _⟩ | ⟨raw, _, hexec⟩ | ⟨f, _, hexec⟩
  · exact absurd rfl (hi c)
  · rw [hexec, execDecodeResponse_of_noSession hs]
    rfl
  · rw [hexec, encodeOperation_of_noSession hs]
    rfl

/-- The bytes of a well-formed frame, with the header value as the sum of its three disjoint fields (R70, R75). -/
theorem emit_of_wellFormed {m : Mode} {f : Frame} (hw : wellFormedFrame m f = true) :
    emit m f = be (headerBytes m)
        (f.address + (if f.isWrite then 2 ^ (8 * headerBytes m - 1) else 0)
          + (if f.isBurst then 2 ^ (8 * headerBytes m - 2) else 0))
      ++ f.values.flatMap (be (wordBytes m)) := by
  obtain ⟨_, _, _, haddress, _⟩ := (wellFormedFrame_iff m f).mp hw
  rw [emit_eq, headerValue_eq haddress (wellFormedFrame_burst hw)]

/-- Settles O12: the bytes ENCODE answers for a well-formed frame are the emitted ones, whose header value is the sum of its fields
because a well-formed frame has an address that fits and a burst flag only where the mode has one. -/
theorem encodeEmitsHeaderThenWords : Obligations.EncodeEmitsHeaderThenWords := by
  intro m f s hs hw
  have hexec : exec (.encode f) s = .next (finish (.bytes (emit m f)) s) := by
    rw [exec_of_issuedFrame rfl s, encodeOperation_of_wellFormed hs hw]
  exact ⟨emit m f, hexec, emit_of_wellFormed hw, length_emit m f⟩

end Sys2Proof.Machine
end

section
/-! The mode of the frame kind a wire frame decodes to, and the only offer that stands for CONFIGURE (spec/30_encoding.md R71, R80,
R82). -/

namespace Sys2Proof

theorem decodePayload_width {w : WordWidth} {bs : List Byte} {p : Payload} (h : decodePayload w bs = .ok p) : p.width = w := by
  cases w with
  | w8 => cases h; rfl
  | w16 =>
    unfold decodePayload at h
    cases hp : pairBytes bs with
    | none => simp [hp] at h
    | some vs => simp [hp] at h; subst h; rfl

/-- A frame kind of one word, made from a payload, belongs to the mode its format and the payload's width give. -/
theorem frameMode_of_one {p : Payload} {g : Datum → Instr} {i : Instr} {e b : Bool}
    (hg : ∀ d, (g d).frameMode = some ⟨e, b, d.width⟩) (h : p.one.map g = .ok i) : i.frameMode = some ⟨e, b, p.width⟩ := by
  unfold Payload.one at h
  split at h <;> cases h
  · exact hg (.byte _)
  · exact hg (.word _)

/-- A burst frame kind, made from a payload, belongs to the mode its format and the payload's width give. -/
theorem frameMode_of_many {p : Payload} {g : Payload → Instr} {i : Instr} {e b : Bool}
    (hg : ∀ q, (g q).frameMode = some ⟨e, b, q.width⟩) (h : p.many.map g = .ok i) : i.frameMode = some ⟨e, b, p.width⟩ := by
  unfold Payload.many at h
  split at h <;> cases h
  exact hg p

theorem decodeS7_frameMode {hv : BitVec 8} {p : Payload} {i : Instr} (h : decodeS7 hv p = .ok i) :
    i.frameMode = some ⟨false, false, p.width⟩ := by
  simp only [decodeS7] at h
  split at h <;> exact frameMode_of_one (fun _ => rfl) h

theorem decodeX15_frameMode {hv : BitVec 16} {p : Payload} {i : Instr} (h : decodeX15 hv p = .ok i) :
    i.frameMode = some ⟨true, false, p.width⟩ := by
  simp only [decodeX15] at h
  split at h <;> exact frameMode_of_one (fun _ => rfl) h

theorem decodeS6B_frameMode {hv : BitVec 8} {p : Payload} {i : Instr} (h : decodeS6B hv p = .ok i) :
    i.frameMode = some ⟨false, true, p.width⟩ := by
  simp only [decodeS6B] at h
  split at h
  · exact frameMode_of_one (fun _ => rfl) h
  · exact frameMode_of_one (fun _ => rfl) h
  · exact frameMode_of_many (fun _ => rfl) h
  · exact frameMode_of_many (fun _ => rfl) h

theorem decodeX14B_frameMode {hv : BitVec 16} {p : Payload} {i : Instr} (h : decodeX14B hv p = .ok i) :
    i.frameMode = some ⟨true, true, p.width⟩ := by
  simp only [decodeX14B] at h
  split at h
  · exact frameMode_of_one (fun _ => rfl) h
  · exact frameMode_of_one (fun _ => rfl) h
  · exact frameMode_of_many (fun _ => rfl) h
  · exact frameMode_of_many (fun _ => rfl) h

/-- What a payload decodes to belongs to the mode that gives it its width, if the header's decoder keeps to that mode. -/
theorem frameMode_of_payload {m : Mode} {bs : List Byte} {k : Payload → Except DecodeError Instr} {i : Instr}
    (hk : ∀ p, k p = .ok i → i.frameMode = some ⟨m.extendedAddress, m.burstCapable, p.width⟩)
    (h : (decodePayload m.wordWidth bs).bind k = .ok i) : i.frameMode = some m := by
  cases hp : decodePayload m.wordWidth bs with
  | error e => rw [hp] at h; cases h
  | ok p =>
    rw [hp] at h
    rw [hk p h, decodePayload_width hp]

/-- A frame read under a mode is a frame kind of that mode (R80). -/
theorem decodeFrame_frameMode {m : Mode} {bs : List Byte} {i : Instr} (h : decodeFrame m bs = .ok i) : i.frameMode = some m := by
  obtain ⟨extended, burst, w⟩ := m
  simp only [decodeFrame] at h
  split at h
  · refine frameMode_of_payload (fun p hp => ?_) h
    cases burst with
    | false => exact decodeS7_frameMode hp
    | true => exact decodeS6B_frameMode hp
  · refine frameMode_of_payload (fun p hp => ?_) h
    cases burst with
    | false => exact decodeX15_frameMode hp
    | true => exact decodeX14B_frameMode hp
  all_goals cases h

/-- Op code 0 is CONFIGURE, in every session (R82). -/
@[simp] theorem decode_command_zero (session : Option Mode) (x : Operand) :
    decode session (.command 0#2 x) = .ok (.configure x.mode) := rfl

theorem decodeCommand_eq_configure {op : BitVec 2} {x : Operand} {c : CandidateMode}
    (h : decodeCommand op x = .ok (.configure c)) : op = 0#2 ∧ c = x.mode := by
  unfold decodeCommand at h
  split at h
  · next hop => cases h; exact ⟨hop, rfl⟩
  · split at h
    · cases h
    · split at h <;> cases h

/-- CONFIGURE is offered by op code 0 only: no frame stands for it (R82). -/
theorem decode_eq_configure {session : Option Mode} {o : Offer} {c : CandidateMode}
    (h : decode session o = .ok (.configure c)) : ∃ x, o = .command 0#2 x ∧ c = x.mode := by
  cases o with
  | command op x =>
    obtain ⟨rfl, rfl⟩ := decodeCommand_eq_configure h
    exact ⟨x, rfl, rfl⟩
  | frame bs =>
    cases session with
    | none => cases h
    | some m => cases decodeFrame_frameMode h

end Sys2Proof
end

section
/-! CONFIGURE in each of its three cases (spec/40_configure.md R101, R102). -/

namespace Sys2Proof.Machine

theorem toMode_eq_none {c : CandidateMode} (h8 : c.wordWidth ≠ 8) (h16 : c.wordWidth ≠ 16) : toMode c = none := by
  rw [toMode, if_neg h8, if_neg h16]

theorem toMode_of_width8 {c : CandidateMode} (h : c.wordWidth = 8) :
    toMode c = some ⟨c.extendedAddress, c.burstCapable, .w8⟩ := by
  rw [toMode, if_pos h]

theorem toMode_of_width16 {c : CandidateMode} (h : c.wordWidth = 16) :
    toMode c = some ⟨c.extendedAddress, c.burstCapable, .w16⟩ := by
  simp [toMode, h]

theorem execConfigure_of_session {s : State} (h : s.session ≠ none) (c : CandidateMode) :
    execConfigure c s = .next (raise .alreadyConfigured s) := by
  obtain ⟨m, hm⟩ := Option.ne_none_iff_exists'.mp h
  simp [execConfigure, hm]

theorem execConfigure_of_invalid {s : State} {c : CandidateMode} (h : s.session = none) (hc : toMode c = none) :
    execConfigure c s = .next (raise .unsupportedWidth s) := by
  rw [execConfigure, h, hc]

theorem execConfigure_of_valid {s : State} {c : CandidateMode} {m : Mode} (h : s.session = none) (hc : toMode c = some m) :
    execConfigure c s = .next (finish .nothing (s.setSession (some m))) := by
  rw [execConfigure, h, hc]

/-- Settles O3: whether there is a session, and then the width, decides which of CONFIGURE's three ends is reached. -/
theorem configureLatchesTheModeOnce : Obligations.ConfigureLatchesTheModeOnce := by
  intro c s
  refine ⟨fun hs => ?inSession, fun hs h8 h16 => ?invalid, fun hs h8 => ?width8, fun hs h16 => ?width16, fun x => ?opCode⟩
  case inSession => exact execConfigure_of_session hs c
  case invalid => exact execConfigure_of_invalid hs (toMode_eq_none h8 h16)
  case width8 => exact execConfigure_of_valid hs (toMode_of_width8 h8)
  case width16 => exact execConfigure_of_valid hs (toMode_of_width16 h16)
  case opCode => exact decode_command_zero s.session x

/-- What CONFIGURE answers, if anything, is a status or an empty success (R24). -/
theorem execConfigure_result {c : CandidateMode} {s t : State} (h : execConfigure c s = .next t) {r : Response}
    (hr : t.response = some r) : r.result = none ∨ r.result = some .nothing := by
  rcases execConfigure_cases c s with ⟨_, he⟩ | ⟨_, _, he⟩ | ⟨m, _, _, he⟩ <;> cases he.symm.trans h <;> cases hr
  · exact .inl rfl
  · exact .inl rfl
  · exact .inr rfl

/-- CONFIGURE reads the session and its operand only. -/
theorem execConfigure_congr {c : CandidateMode} {s s' t t' : State} (hs : s.session = s'.session)
    (h : execConfigure c s = .next t) (h' : execConfigure c s' = .next t') :
    t.session = t'.session ∧ t.response = t'.response := by
  rcases execConfigure_cases c s with ⟨hn, he⟩ | ⟨hn, hc, he⟩ | ⟨m, hn, hc, he⟩ <;> cases he.symm.trans h
  · cases (execConfigure_of_session (hs ▸ hn) c).symm.trans h'
    exact ⟨hs, rfl⟩
  · cases (execConfigure_of_invalid (hs ▸ hn) hc).symm.trans h'
    exact ⟨hs, rfl⟩
  · cases (execConfigure_of_valid (hs ▸ hn) hc).symm.trans h'
    exact ⟨rfl, rfl⟩

/-! ## What an instruction and a step do to the session and to the inputs -/

theorem encodeOperation_eq_setResponse (f : Frame) (s : State) : ∃ r, encodeOperation f s = s.setResponse (some r) := by
  rcases encodeOperation_cases f s with ⟨_, h⟩ | ⟨_, _, _, h⟩ | ⟨_, _, _, _, h⟩
  · exact ⟨_, h⟩
  · exact ⟨_, h⟩
  · exact ⟨_, h⟩

theorem execDecodeResponse_eq_setResponse (raw : List Byte) (s : State) :
    ∃ r, execDecodeResponse raw s = .next (s.setResponse (some r)) := by
  rcases execDecodeResponse_cases raw s with ⟨_, h⟩ | ⟨_, _, _, h⟩ | ⟨_, _, _, h⟩
  · exact ⟨_, h⟩
  · exact ⟨_, h⟩
  · exact ⟨_, h⟩

/-- An instruction writes the response alone, or is a CONFIGURE that latches its operand where there was no session (R102). -/
theorem exec_writes (i : Instr) (s : State) :
    (∃ r, exec i s = .next (s.setResponse (some r))) ∨
    (∃ c m, i = .configure c ∧ s.session = none ∧ toMode c = some m ∧
      exec i s = .next (finish .nothing (s.setSession (some m)))) := by
  rcases exec_cases i s with ⟨c, hi, he⟩ | ⟨raw, _, he⟩ | ⟨f, _, he⟩
  · rcases execConfigure_cases c s with ⟨_, hc⟩ | ⟨_, _, hc⟩ | ⟨m, hs, hm, hc⟩
    · exact .inl ⟨_, he.trans hc⟩
    · exact .inl ⟨_, he.trans hc⟩
    · exact .inr ⟨c, m, hi, hs, hm, he.trans hc⟩
  · obtain ⟨r, hr⟩ := execDecodeResponse_eq_setResponse raw s
    exact .inl ⟨r, he.trans hr⟩
  · obtain ⟨r, hr⟩ := encodeOperation_eq_setResponse f s
    exact .inl ⟨r, hr ▸ he⟩

theorem exec_inputs {i : Instr} {s t : State} (h : exec i s = .next t) : t.inputs = s.inputs := by
  rcases exec_writes i s with ⟨r, he⟩ | ⟨c, m, _, _, _, he⟩ <;> cases he.symm.trans h <;> rfl

/-- An instruction keeps the session, or is a CONFIGURE that latches its operand where there was none (R102). -/
theorem exec_session {i : Instr} {s t : State} (h : exec i s = .next t) :
    t.session = s.session ∨
    ∃ c m, i = .configure c ∧ s.session = none ∧ toMode c = some m ∧ t.session = some m := by
  rcases exec_writes i s with ⟨r, he⟩ | ⟨c, m, hi, hs, hm, he⟩ <;> cases he.symm.trans h
  · exact .inl rfl
  · exact .inr ⟨c, m, hi, hs, hm, rfl⟩

theorem reject_inputs {e : DecodeError} {s t : State} (h : reject e s = .next t) : t.inputs = s.inputs := by
  rcases reject_eq_next h with ⟨_, rfl⟩ | ⟨_, rfl⟩ <;> rfl

theorem reject_session {e : DecodeError} {s t : State} (h : reject e s = .next t) : t.session = s.session := by
  rcases reject_eq_next h with ⟨_, rfl⟩ | ⟨_, rfl⟩ <;> rfl

/-- A step consumes the first input, if there is one (R51). -/
theorem step_inputs {s t : State} (h : step s = .next t) : t.inputs = s.inputs.tail := by
  rcases step_cases s with ⟨hi, he⟩ | ⟨rest, hi, he⟩ | ⟨o, rest, i, hi, _, he⟩ | ⟨o, rest, e, hi, _, he⟩ <;>
    rw [he] at h <;> rw [hi]
  · cases h
    exact hi
  · cases h
    rfl
  · exact exec_inputs h
  · exact reject_inputs h

/-- A step keeps the session, or it takes a reset event, or it takes a CONFIGURE that latches its operand (R102). -/
theorem step_session {s t : State} (h : step s = .next t) :
    t.session = s.session ∨
    (t.session = none ∧ ∃ rest, s.inputs = .reset :: rest) ∨
    (∃ (x : Operand) (rest : List Input) (m : Mode), s.inputs = .offer (.command 0#2 x) :: rest ∧ s.session = none ∧
      t.session = some m ∧ candidate m = x.mode) := by
  rcases step_cases s with ⟨_, he⟩ | ⟨rest, hi, he⟩ | ⟨o, rest, i, hi, hd, he⟩ | ⟨o, rest, e, _, _, he⟩ <;> rw [he] at h
  · cases h
    exact .inl rfl
  · cases h
    exact .inr (.inl ⟨rfl, rest, hi⟩)
  · rcases exec_session h with ht | ⟨c, m, rfl, hs, hm, ht⟩
    · exact .inl ht
    · obtain ⟨x, rfl, rfl⟩ := decode_eq_configure hd
      exact .inr (.inr ⟨x, rest, m, hi, hs, ht, (toMode_eq_some hm).symm⟩)
  · exact .inl ((reject_session h).trans (setInputs_session s rest))

/-- Settles O4: of all a step can take, only a reset event and a CONFIGURE write the session; what CONFIGURE answers is read off its
three cases. -/
theorem onlyConfigureBringsInAMode : Obligations.OnlyConfigureBringsInAMode :=
  ⟨fun _ _ => step_session, fun _ _ _ h _ => execConfigure_result h, fun _ _ _ _ _ => execConfigure_congr⟩

/-! ## Runs without a reset -/

theorem run_succ_eq_next {n : Nat} {s t : State} (h : core.run (n + 1) s = .next t) :
    ∃ u, step s = .next u ∧ core.run n u = .next t := by
  simp only [Host.Core.run, Host.Check.core_step] at h
  split at h
  · next u hu => exact ⟨u, hu, h⟩
  · cases h
  · cases h

/-- One step in a session with no reset waiting keeps the session, and no reset is waiting after it. -/
theorem step_keeps_session {s t : State} {m : Mode} (hs : s.session = some m) (hr : Input.reset ∉ s.inputs)
    (h : step s = .next t) : t.session = some m ∧ Input.reset ∉ t.inputs := by
  refine ⟨?session, ?inputs⟩
  case session =>
    rcases step_session h with ht | ⟨_, rest, hi⟩ | ⟨x, rest, _, _, hn, _⟩
    · exact ht.trans hs
    · exact absurd (hi ▸ List.mem_cons_self) hr
    · cases hs.symm.trans hn
  case inputs =>
    rw [step_inputs h]
    exact fun hmem => hr (List.mem_of_mem_tail hmem)

theorem run_keeps_session {n : Nat} {s t : State} {m : Mode} (hs : s.session = some m) (hr : Input.reset ∉ s.inputs)
    (h : core.run n s = .next t) : t.session = some m := by
  induction n generalizing s with
  | zero => cases h; exact hs
  | succ n ih =>
    obtain ⟨u, hstep, hrun⟩ := run_succ_eq_next h
    obtain ⟨hu, hru⟩ := step_keeps_session hs hr hstep
    exact ih hu hru hrun

/-- A reset event waiting first is what the step takes (R200). -/
theorem step_of_reset {s : State} {rest : List Input} (h : s.inputs = .reset :: rest) :
    step s = .next (resetBlock (s.setInputs rest)) := by
  simp [step, takeInput, h]

/-- Settles O5, by induction on the number of steps: that no reset is waiting is kept along with the session. -/
theorem sessionHoldsUntilReset : Obligations.SessionHoldsUntilReset :=
  ⟨fun _ _ _ _ => run_keeps_session, fun _ _ h => ⟨_, step_of_reset h, rfl⟩⟩

end Sys2Proof.Machine
end

section
/-! ENCODE in a session (spec/41_encode.md R110, R111, R119 to R121). -/

namespace Sys2Proof.Machine

/-- Op code 1 is ENCODE, in every session (R82). -/
@[simp] theorem decode_command_one (session : Option Mode) (x : Operand) :
    decode session (.command 1#2 x) = .ok (.encode x.frame) := rfl

/-- In a session ENCODE answers what the pure function answers under its mode (R111). -/
theorem encodeOperation_of_session {m : Mode} {s : State} (h : s.session = some m) (f : Frame) :
    encodeOperation f s = answer ((encodeFrame (candidate m) f).map Result.bytes) s := by
  rw [encodeOperation, h]

/-- A mode in session has a legal width (R111). -/
theorem encodeFrame_candidate_ne_unsupportedWidth {m : Mode} {f : Frame} {st : Status}
    (h : encodeFrame (candidate m) f = .error st) : st ≠ .unsupportedWidth := by
  rw [encodeFrame_candidate] at h
  rcases encodeIn_eq_error h with ⟨rfl, _⟩ | rfl | rfl <;> decide

/-- Settles O9: ENCODE looks at the session first, and in one returns the pure function's answer as its response. -/
theorem encodeIsThePureFunctionUnderTheSession : Obligations.EncodeIsThePureFunctionUnderTheSession := by
  intro f s
  have hexec : exec (.encode f) s = .next (encodeOperation f s) := exec_of_issuedFrame rfl s
  rw [hexec]
  refine ⟨fun hs => ?noSession, fun m hs => ⟨fun out ho => ?bytes, fun st he => ?status⟩, decode_command_one s.session⟩
  case noSession => rw [encodeOperation_of_noSession hs]; rfl
  case bytes => rw [encodeOperation_of_session hs, ho]; rfl
  case status =>
    rw [encodeOperation_of_session hs, he]
    exact ⟨encodeFrame_candidate_ne_unsupportedWidth he, rfl⟩

/-! ## The frame an instruction issues, in a session -/

/-- An instruction that issues a well-formed frame answers its bytes. -/
theorem exec_of_wellFormed {i : Instr} {m : Mode} {f : Frame} {s : State} (hi : issuedFrame i = some f)
    (hs : s.session = some m) (hw : wellFormedFrame m f = true) : exec i s = .next (finish (.bytes (emit m f)) s) := by
  rw [exec_of_issuedFrame hi, encodeOperation_of_wellFormed hs hw]

/-- An instruction that issues a frame a check turns away raises that check's status. -/
theorem exec_of_checkFrame_error {i : Instr} {m : Mode} {f : Frame} {s : State} {st : Status} (hi : issuedFrame i = some f)
    (hs : s.session = some m) (he : checkFrame m f = .error st) : exec i s = .next (raise st s) := by
  rw [exec_of_issuedFrame hi, encodeOperation_of_error hs he]

/-- The first check of R110 after the width: a burst, by its flag or by its count, in a mode that cannot burst (R173). -/
theorem checkFrame_of_cannotBurst {m : Mode} {f : Frame} (hm : m.burstCapable = false)
    (hf : f.isBurst = true ∨ 1 < wordCount f) : checkFrame m f = .error .burstNotSupported := by
  rw [checkFrame, if_pos (by simpa [hm] using hf)]

/-- Settles O15: the count alone makes the first check fire, and no later check is reached. -/
theorem countIsEnforcedWithoutBurst : Obligations.CountIsEnforcedWithoutBurst := by
  intro m f s hm hcount
  have hcheck : checkFrame m f = .error .burstNotSupported := checkFrame_of_cannotBurst hm (.inr hcount)
  refine ⟨?_, fun hs => exec_of_checkFrame_error rfl hs hcheck⟩
  rw [encodeFrame_candidate, encodeIn, hcheck]

/-! ## Where the flags and the words stand -/

/-- The most significant byte of `n + 1` bytes holds the bits from `8 * n` on. -/
theorem getLsbD_topByte {k : Nat} (hk : k < 8) (n v : Nat) :
    (BitVec.ofNat 8 (v / 256 ^ n)).getLsbD k = v.testBit (8 * n + k) := by
  rw [BitVec.getLsbD_ofNat, show 256 ^ n = 2 ^ (8 * n) by rw [Nat.pow_mul], Nat.testBit_div_two_pow]
  simp [hk, Nat.add_comm]

/-- The first byte of an emitted frame holds the two top bits of the header value in its own (R71, R76). -/
theorem emit_firstByte (m : Mode) (f : Frame) : ∃ b0 rest, emit m f = b0 :: rest ∧
    b0.getLsbD 7 = (headerValue m f).testBit (8 * headerBytes m - 1) ∧
    b0.getLsbD 6 = (headerValue m f).testBit (8 * headerBytes m - 2) := by
  obtain ⟨n, hn⟩ : ∃ n, headerBytes m = n + 1 := by
    rcases headerBytes_cases m with h | h
    · exact ⟨0, h⟩
    · exact ⟨1, h⟩
  rw [emit_eq, hn]
  exact ⟨_, _, rfl, getLsbD_topByte (by decide) n _, getLsbD_topByte (by decide) n _⟩

/-- Without a burst field the bit below the write flag is the top bit of the address (R119). -/
theorem headerValue_topAddressBit {m : Mode} {f : Frame} (hw : wellFormedFrame m f = true) (hm : m.burstCapable = false) :
    (headerValue m f).testBit (8 * headerBytes m - 2) = f.address.testBit (addressBits m - 1) := by
  obtain ⟨haddress, _, _⟩ := headerValue_fields hw
  have hbits : addressBits m + 1 = 8 * headerBytes m := by
    rcases addressBits_cases m with ⟨_, h⟩ | ⟨h, _⟩
    · exact h
    · simp [hm] at h
  have hpos := headerBytes_cases m
  rw [← haddress, Nat.testBit_mod_two_pow, show addressBits m - 1 = 8 * headerBytes m - 2 by omega,
    decide_eq_true (by omega), Bool.true_and]

/-- Settles O13: the first byte holds the two top bits of the header value, from which the two flags are read back. -/
theorem flagsStandInTheFirstByte : Obligations.FlagsStandInTheFirstByte := by
  intro m f s hs hw
  obtain ⟨b0, rest, hemit, h7, h6⟩ := emit_firstByte m f
  obtain ⟨_, hwrite, hburst⟩ := headerValue_fields hw
  have hexec := exec_of_wellFormed (i := .encode f) rfl hs hw
  refine ⟨b0, rest, hemit ▸ hexec, h7.trans hwrite, fun hm => ?burstField, fun hm => ?noBurstField⟩
  case burstField => rw [h6, ← hburst, hm, Bool.true_and]
  case noBurstField => rw [h6, headerValue_topAddressBit hw hm]

/-- Word `i` stands `i` words behind the first (R120). -/
theorem take_drop_flatMap_be {n i v : Nat} {vs : List Nat} (h : vs[i]? = some v) :
    ((vs.flatMap (be n)).drop (i * n)).take n = be n v := by
  induction vs generalizing i with
  | nil => simp at h
  | cons w vs ih =>
    rw [List.flatMap_cons]
    cases i with
    | zero =>
      obtain rfl : w = v := by simpa using h
      rw [Nat.zero_mul, List.drop_zero, List.take_left' (length_be n w)]
    | succ i =>
      have hdrop : (be n w ++ vs.flatMap (be n)).drop ((i + 1) * n) = (vs.flatMap (be n)).drop (i * n) := by
        rw [Nat.succ_mul, Nat.add_comm, ← List.drop_drop, List.drop_left' (length_be n w)]
      rw [hdrop, ih (by simpa using h)]

/-- The low byte of a value is the low byte of its remainder. -/
theorem ofNat_mod_256 (v : Nat) : BitVec.ofNat 8 (v % 256) = BitVec.ofNat 8 v := by
  apply BitVec.eq_of_toNat_eq
  simp

/-- Settles O14: behind the header the emitted bytes are those of the words, each `S` long. -/
theorem everyWordTakesItsOwnBytes : Obligations.EveryWordTakesItsOwnBytes := by
  intro m f s hs hw
  refine ⟨emit m f, exec_of_wellFormed rfl hs hw, fun i v hv => ?_⟩
  rw [← List.drop_drop, emit_drop_header, take_drop_flatMap_be hv]
  obtain ⟨e, b, w⟩ := m
  cases w with
  | w8 => rw [wordBytes_w8, be_one]
  | w16 => rw [wordBytes_w16, be_two, ofNat_mod_256]

end Sys2Proof.Machine
end

section
/-! The words of a frame kind fit its width (spec/30_encoding.md R77). -/

namespace Sys2Proof

theorem Datum.value_lt (d : Datum) : d.value < 2 ^ d.width.bits := by
  cases d with
  | byte v => exact v.isLt
  | word v => exact v.isLt

theorem Payload.values_lt (p : Payload) {v : Nat} (hv : v ∈ p.values) : v < 2 ^ p.width.bits := by
  cases p with
  | bytes vs => obtain ⟨x, _, rfl⟩ := List.mem_map.mp hv; exact x.isLt
  | words vs => obtain ⟨x, _, rfl⟩ := List.mem_map.mp hv; exact x.isLt

end Sys2Proof
end

section
/-! The frame kinds in the mode of their format: the bytes of their tables, and what those stand for on the bus (spec/41_encode.md
R113 to R116). -/

namespace Sys2Proof.Machine

/-! ## The bytes of a frame, for each header length -/

/-- What the two flags contribute to the first byte (R71). -/
def flagByte (f : Frame) : Nat := (if f.isWrite then 0x80 else 0) + (if f.isBurst then 0x40 else 0)

/-- The header value is the flags in the first byte over the address (R71, R75). -/
theorem headerValue_eq_flagByte {m : Mode} {f : Frame} (hw : wellFormedFrame m f = true) :
    headerValue m f = flagByte f * 256 ^ (headerBytes m - 1) + f.address := by
  obtain ⟨_, _, _, haddress, _⟩ := (wellFormedFrame_iff m f).mp hw
  rw [headerValue_eq haddress (wellFormedFrame_burst hw), flagByte]
  rcases headerBytes_cases m with h | h
  · rw [h]
    split <;> split <;> omega
  · rw [h]
    split <;> split <;> omega

theorem be_two_add (k a : Nat) :
    be 2 (k * 256 + a) = [BitVec.ofNat 8 (k + a / 256), BitVec.ofNat 8 (a % 256)] := by
  rw [be_two, ← ofNat_mod_256 (k * 256 + a), Nat.mul_add_mod_self_right, Nat.add_comm (k * 256),
    Nat.add_mul_div_right _ _ (by decide), Nat.add_comm k]

/-- The bytes of a frame in a format with one header byte (S7, S6B). -/
theorem emit_oneByteHeader {b : Bool} {w : WordWidth} {f : Frame} (hw : wellFormedFrame ⟨false, b, w⟩ f = true) :
    emit ⟨false, b, w⟩ f = [BitVec.ofNat 8 (flagByte f + f.address)] ++ f.values.flatMap (be (w.bits / 8)) := by
  have hheader : be (headerBytes ⟨false, b, w⟩) (headerValue ⟨false, b, w⟩ f)
      = [BitVec.ofNat 8 (flagByte f + f.address)] := by
    rw [headerValue_eq_flagByte hw, show headerBytes ⟨false, b, w⟩ = 1 from rfl, be_one, Nat.pow_zero, Nat.mul_one]
  rw [emit_eq, hheader]
  rfl

/-- The bytes of a frame in a format with two header bytes (X15, X14B). -/
theorem emit_twoByteHeader {b : Bool} {w : WordWidth} {f : Frame} (hw : wellFormedFrame ⟨true, b, w⟩ f = true) :
    emit ⟨true, b, w⟩ f = [BitVec.ofNat 8 (flagByte f + f.address / 256), BitVec.ofNat 8 (f.address % 256)]
      ++ f.values.flatMap (be (w.bits / 8)) := by
  have hheader : be (headerBytes ⟨true, b, w⟩) (headerValue ⟨true, b, w⟩ f)
      = [BitVec.ofNat 8 (flagByte f + f.address / 256), BitVec.ofNat 8 (f.address % 256)] := by
    rw [headerValue_eq_flagByte hw, show headerBytes ⟨true, b, w⟩ = 2 from rfl, Nat.pow_one, be_two_add]
  rw [emit_eq, hheader]
  rfl

/-! ## What the bytes of a frame stand for -/

/-- `parse_frame` reads an emitted frame as the frame (R156). -/
theorem parseFrame_emit {m : Mode} {f : Frame} (hw : wellFormedFrame m f = true) : parseFrame m (emit m f) = some f := by
  obtain ⟨hcount, hburst, _, _, _⟩ := (wellFormedFrame_iff m f).mp hw
  have hlong : ¬ (emit m f).length < headerBytes m + wordBytes m := by
    rw [length_emit]
    have := Nat.le_mul_of_pos_left (wordBytes m) hcount
    omega
  have hwhole : ((emit m f).length - headerBytes m) % wordBytes m = 0 := by
    rw [length_emit, Nat.add_sub_cancel_left, Nat.mul_mod_left]
  have hagrees : burstFlagAgrees f = true :=
    beq_iff_eq.mpr (Bool.eq_iff_iff.mpr (hburst.trans decide_eq_true_iff.symm))
  rw [parseFrame, if_neg hlong, if_neg (not_not_intro hwhole), frameOfBytes_of_emit hw, hagrees]
  rfl

/-- Emitted bytes stand for the frame's bus transactions (R151, R156). -/
theorem meaningOf_emit {m : Mode} {f : Frame} (hw : wellFormedFrame m f = true) (readBack : List Nat) :
    meaningOf m (emit m f) readBack = some (expand f readBack) := by
  rw [meaningOf, parseFrame_emit hw]
  rfl

theorem expand_singleWrite (a : Nat) (d : Datum) : expand (singleFrame a true d) [] = [⟨a, d.value, true⟩] := rfl

theorem expand_singleRead (a : Nat) (d : Datum) (w : Nat) : expand (singleFrame a false d) [w] = [⟨a, w, false⟩] := rfl

theorem expand_burstWrite (a : Nat) (p : Payload) :
    expand (burstFrame a true p) [] = p.values.zipIdx.map (fun (v, i) => ⟨a + i, v, true⟩) := rfl

theorem expand_burstRead (a : Nat) {p : Payload} {ws : List Nat} (h : ws.length = p.values.length) :
    expand (burstFrame a false p) ws = ws.zipIdx.map (fun (w, i) => ⟨a + i, w, false⟩) := by
  have htake : ws.take (wordCount (burstFrame a false p)) = ws := List.take_of_length_le h.le
  have hwords : transferredWords (burstFrame a false p) ws = ws := htake
  rw [expand, hwords]
  rfl

/-! ## The frame kinds of each header length -/

section
variable {i : Instr} {b : Bool} {w : WordWidth} {f : Frame} {s : State} {first : Nat} {payload : List Byte}
  {readBack : List Nat} {transactions : List BusTransaction}

/-- An instruction that issues a well-formed frame, in a format with one header byte, answers that byte and the words, which stand
for the frame's bus transactions. -/
theorem exec_oneByteHeader (hi : issuedFrame i = some f) (hs : s.session = some ⟨false, b, w⟩)
    (hw : wellFormedFrame ⟨false, b, w⟩ f = true) (hfirst : flagByte f + f.address = first)
    (hpayload : f.values.flatMap (be (w.bits / 8)) = payload) (hbus : expand f readBack = transactions) :
    ∃ out, exec i s = .next { s with response := some ⟨.ok, some (.bytes out)⟩ } ∧
      out = [BitVec.ofNat 8 first] ++ payload ∧ meaningOf ⟨false, b, w⟩ out readBack = some transactions := by
  subst hfirst hpayload hbus
  exact ⟨_, exec_of_wellFormed hi hs hw, emit_oneByteHeader hw, meaningOf_emit hw readBack⟩

/-- The same in a format with two header bytes. -/
theorem exec_twoByteHeader (hi : issuedFrame i = some f) (hs : s.session = some ⟨true, b, w⟩)
    (hw : wellFormedFrame ⟨true, b, w⟩ f = true) (hfirst : flagByte f + f.address / 256 = first)
    (hpayload : f.values.flatMap (be (w.bits / 8)) = payload) (hbus : expand f readBack = transactions) :
    ∃ out, exec i s = .next { s with response := some ⟨.ok, some (.bytes out)⟩ } ∧
      out = [BitVec.ofNat 8 first, BitVec.ofNat 8 (f.address % 256)] ++ payload ∧
      meaningOf ⟨true, b, w⟩ out readBack = some transactions := by
  subst hfirst hpayload hbus
  exact ⟨_, exec_of_wellFormed hi hs hw, emit_twoByteHeader hw, meaningOf_emit hw readBack⟩

end

/-! ## One word: WR and RD -/

theorem wellFormedFrame_singleFrame {e b isWrite : Bool} {a : Nat} {d : Datum} (ha : a < 2 ^ addressBits ⟨e, b, d.width⟩) :
    wellFormedFrame ⟨e, b, d.width⟩ (singleFrame a isWrite d) = true := by
  rw [wellFormedFrame_iff]
  refine ⟨le_rfl, by simp [singleFrame, wordCount], .inr rfl, ha, fun v hv => ?_⟩
  obtain rfl : v = d.value := by simpa [singleFrame] using hv
  exact d.value_lt

/-- Settles O19: in each format the frame of WR is well formed in the format's mode, and its write flag is the 0x80 of the
table. -/
theorem singleWriteEmitsItsBytes : Obligations.SingleWriteEmitsItsBytes := by
  refine ⟨fun a v s hs => ?S7, fun a v s hs => ?S6B, fun a v s hs => ?X15, fun a v s hs => ?X14B⟩
  case S7 | S6B =>
    exact exec_oneByteHeader rfl hs (wellFormedFrame_singleFrame a.isLt) rfl (List.flatMap_singleton _ _)
      (expand_singleWrite a.toNat v)
  case X15 | X14B =>
    exact exec_twoByteHeader rfl hs (wellFormedFrame_singleFrame a.isLt) rfl (List.flatMap_singleton _ _)
      (expand_singleWrite a.toNat v)

/-- `decode_response` answers the words that stand behind a header of the mode's length (R140). -/
theorem decodeIn_of_words {m : Mode} {hdr : List Byte} {ws : List Nat} (hlen : hdr.length = headerBytes m)
    (hws : ∀ w ∈ ws, w < 2 ^ wordBits m) : decodeIn m (hdr ++ ws.flatMap (be (wordBytes m))) = .ok ws := by
  have hlength : (hdr ++ ws.flatMap (be (wordBytes m))).length = headerBytes m + ws.length * wordBytes m := by
    rw [List.length_append, length_flatMap_be, hlen]
  have hread : readWords m (hdr ++ ws.flatMap (be (wordBytes m))) = ws := by
    rw [readWords_eq, hlength, Nat.add_sub_cancel_left, Nat.mul_div_cancel _ (wordBytes_pos m), List.drop_left' hlen]
    exact groupWords_flatMap (wordBytes_one_or_two m) (by rwa [← wordBits_eq])
  rw [decodeIn, hlength, if_neg (Nat.not_lt.mpr (Nat.le_add_right _ _)), Nat.add_sub_cancel_left, Nat.mul_mod_left,
    if_neg (not_not_intro rfl), hread]

/-- Settles O20: as for WR with no flag set; the word in the response is the one that stands behind the header. -/
theorem singleReadEmitsItsBytes : Obligations.SingleReadEmitsItsBytes := by
  refine ⟨fun a p s w hs => ?S7, fun a p s w hs => ?S6B, fun a p s w hs => ?X15, fun a p s w hs => ?X14B,
    fun m hdr w s hs hlen hw => ?response⟩
  case S7 | S6B =>
    exact exec_oneByteHeader rfl hs (wellFormedFrame_singleFrame a.isLt) (Nat.zero_add _) (List.flatMap_singleton _ _)
      (expand_singleRead a.toNat p w)
  case X15 | X14B =>
    exact exec_twoByteHeader rfl hs (wellFormedFrame_singleFrame a.isLt) (Nat.zero_add _) (List.flatMap_singleton _ _)
      (expand_singleRead a.toNat p w)
  case response =>
    rw [← List.flatMap_singleton (be (wordBytes m)) w]
    exact execDecodeResponse_of_ok hs (decodeIn_of_words hlen (List.forall_mem_singleton.mpr hw))

/-! ## Two or more words: WRB and RDB -/

theorem wellFormedFrame_burstFrame {e isWrite : Bool} {a : Nat} {p : Payload} (ha : a < 2 ^ addressBits ⟨e, true, p.width⟩)
    (hp : 2 ≤ p.values.length) : wellFormedFrame ⟨e, true, p.width⟩ (burstFrame a isWrite p) = true := by
  rw [wellFormedFrame_iff]
  exact ⟨le_trans (by decide) hp, iff_of_true rfl hp, .inl rfl, ha, fun v hv => p.values_lt hv⟩

/-- A burst of fewer than two words passes the first two checks of R110 and fails the third (R115). -/
theorem checkFrame_burst_of_few {e isWrite : Bool} {a : Nat} {p : Payload} (ha : a < 2 ^ addressBits ⟨e, true, p.width⟩)
    (hp : p.values.length < 2) : checkFrame ⟨e, true, p.width⟩ (burstFrame a isWrite p) = .error .invalidFrame := by
  have hflag : burstFlagAgrees (burstFrame a isWrite p) = false := by
    simp [burstFlagAgrees, burstFrame, wordCount, Nat.not_lt.mpr (Nat.le_of_lt_succ hp)]
  have haddress : ¬ 2 ^ addressBits ⟨e, true, p.width⟩ ≤ (burstFrame a isWrite p).address := Nat.not_le.mpr ha
  rw [checkFrame, if_neg (by simp), if_neg haddress, hflag]
  split <;> rfl

/-- A burst is refused in a session that cannot burst, whatever it holds (R115, R173). -/
theorem exec_burst_of_cannotBurst {i : Instr} {a : Nat} {isWrite : Bool} {p : Payload} {m : Mode} {s : State}
    (hi : issuedFrame i = some (burstFrame a isWrite p)) (hs : s.session = some m) (hm : m.burstCapable = false) :
    exec i s = .next (raise .burstNotSupported s) :=
  exec_of_checkFrame_error hi hs (checkFrame_of_cannotBurst hm (.inl rfl))

/-- Settles O21: with two or more words the frame of WRB is well formed in its mode; with fewer its flag disagrees with its count; in
a mode that cannot burst its flag is refused. -/
theorem burstWriteEmitsItsBytes : Obligations.BurstWriteEmitsItsBytes := by
  refine ⟨fun a vs s hs => ⟨fun hn => ?S6B, fun hn => ?fewS6B⟩, fun a vs s hs => ⟨fun hn => ?X14B, fun hn => ?fewX14B⟩,
    fun a b vs m s hs hm => ⟨exec_burst_of_cannotBurst rfl hs hm, exec_burst_of_cannotBurst rfl hs hm⟩⟩
  case S6B => exact exec_oneByteHeader rfl hs (wellFormedFrame_burstFrame a.isLt hn) rfl rfl (expand_burstWrite a.toNat vs)
  case X14B => exact exec_twoByteHeader rfl hs (wellFormedFrame_burstFrame a.isLt hn) rfl rfl (expand_burstWrite a.toNat vs)
  case fewS6B | fewX14B => exact exec_of_checkFrame_error rfl hs (checkFrame_burst_of_few a.isLt hn)

/-- Settles O22: as for WRB with the burst flag alone; the words in the response are those that stand behind the header. -/
theorem burstReadEmitsItsBytes : Obligations.BurstReadEmitsItsBytes := by
  refine ⟨fun a ps s ws hs hn hws => ?S6B, fun a ps s ws hs hn hws => ?X14B, fun a ps s hs hn => ?fewS6B,
    fun a ps s hs hn => ?fewX14B,
    fun a b ps m s hs hm => ⟨exec_burst_of_cannotBurst rfl hs hm, exec_burst_of_cannotBurst rfl hs hm⟩,
    fun m hdr ws s hs hlen hws => execDecodeResponse_of_ok hs (decodeIn_of_words hlen hws)⟩
  case S6B => exact exec_oneByteHeader rfl hs (wellFormedFrame_burstFrame a.isLt hn) rfl rfl (expand_burstRead a.toNat hws)
  case X14B => exact exec_twoByteHeader rfl hs (wellFormedFrame_burstFrame a.isLt hn) rfl rfl (expand_burstRead a.toNat hws)
  case fewS6B | fewX14B => exact exec_of_checkFrame_error rfl hs (checkFrame_burst_of_few a.isLt hn)

end Sys2Proof.Machine
end

section
/-! DECODE_RESPONSE in a session (spec/42_decode_response.md R140, R141). -/

namespace Sys2Proof.Machine

/-- Op code 2 is DECODE_RESPONSE, in every session (R82). -/
@[simp] theorem decode_command_two (session : Option Mode) (x : Operand) :
    decode session (.command 2#2 x) = .ok (.decodeResponse x.raw) := rfl

/-! ## The length decides (R140) -/

theorem decodeIn_of_malformed {m : Mode} {raw : List Byte}
    (h : raw.length < headerBytes m ∨ (raw.length - headerBytes m) % wordBytes m ≠ 0) :
    decodeIn m raw = .error .malformedResponse := by
  rcases h with hshort | hpartial
  · rw [decodeIn, if_pos hshort]
  · rw [decodeIn, if_pos hpartial, ite_self]

theorem decodeIn_of_wholeWords {m : Mode} {raw : List Byte} (hheader : headerBytes m ≤ raw.length)
    (hwhole : (raw.length - headerBytes m) % wordBytes m = 0) : decodeIn m raw = .ok (readWords m raw) := by
  rw [decodeIn, if_neg (Nat.not_lt.mpr hheader), if_neg (not_not_intro hwhole)]

/-- DECODE_RESPONSE, in a session, of a response `decode_response` turns away. -/
theorem execDecodeResponse_of_error {m : Mode} {raw : List Byte} {s : State} {st : Status} (h : s.session = some m)
    (hd : decodeIn m raw = .error st) : execDecodeResponse raw s = .next (raise st s) := by
  rw [execDecodeResponse, h]
  simp [hd, Except.map, answer]

/-! ## The words read -/

@[simp] theorem length_readWords (m : Mode) (raw : List Byte) :
    (readWords m raw).length = (raw.length - headerBytes m) / wordBytes m := by
  simp [readWords]

theorem readWords_getElem? {m : Mode} {raw : List Byte} {i : Nat} (h : i < (raw.length - headerBytes m) / wordBytes m) :
    (readWords m raw)[i]? = some (memRead raw (headerBytes m + i * wordBytes m) (wordBytes m)) := by
  simp [readWords, h]

/-- Two bytes are read as the high one times 256 plus the low one (R45). -/
theorem memRead_two {raw : List Byte} {k : Nat} {hi lo : Byte} (hhi : raw[k]? = some hi) (hlo : raw[k + 1]? = some lo) :
    memRead raw k 2 = hi.toNat * 256 + lo.toNat := by
  have htake : (raw.drop k).take 2 = [hi, lo] := by
    rw [List.take_add_one, List.take_one, List.head?_drop, List.getElem?_drop, hhi, hlo]
    rfl
  rw [memRead_eq, htake, valueOf_two]

theorem groupWords_one (bs : List Byte) : groupWords 1 bs.length bs = bs.map BitVec.toNat := by
  induction bs with
  | nil => rfl
  | cons b bs ih => simp [groupWords, valueOf_one, ih]

/-- With words of one byte, the words are the bytes after the header. -/
theorem readWords_w8 (e b : Bool) (raw : List Byte) :
    readWords ⟨e, b, .w8⟩ raw = (raw.drop (headerBytes ⟨e, b, .w8⟩)).map BitVec.toNat := by
  rw [readWords_eq, wordBytes_w8, Nat.div_one, ← List.length_drop, groupWords_one]

/-- With words of two bytes, a word is the big-endian value of its two bytes. -/
theorem readWords_w16_getElem? {e b : Bool} {raw : List Byte} {i : Nat} {hi lo : Byte}
    (hhi : raw[headerBytes ⟨e, b, .w16⟩ + 2 * i]? = some hi) (hlo : raw[headerBytes ⟨e, b, .w16⟩ + 2 * i + 1]? = some lo) :
    (readWords ⟨e, b, .w16⟩ raw)[i]? = some (hi.toNat * 256 + lo.toNat) := by
  obtain ⟨hlength, _⟩ := List.getElem?_eq_some_iff.mp hlo
  have hcount : i < (raw.length - headerBytes ⟨e, b, .w16⟩) / wordBytes ⟨e, b, .w16⟩ := by
    rw [wordBytes_w16]
    omega
  rw [readWords_getElem? hcount, wordBytes_w16, Nat.mul_comm i, memRead_two hhi hlo]

/-- Settles O26: the session and then the length alone decide which of the three ends is reached; the words answered are those read
after the header, byte by byte or two bytes at a time. -/
theorem decodeResponseReturnsTheWords : Obligations.DecodeResponseReturnsTheWords := by
  intro raw s
  refine ⟨fun hs => ?noSession, fun m hs => ⟨fun hbad => ?malformed, fun hheader hwhole => ?words⟩, fun x => ?opCode⟩
  case noSession => exact execDecodeResponse_of_noSession hs raw
  case malformed => exact execDecodeResponse_of_error hs (decodeIn_of_malformed hbad)
  case words =>
    refine ⟨readWords m raw, execDecodeResponse_of_ok hs (decodeIn_of_wholeWords hheader hwhole), length_readWords m raw,
      fun hw => ?w8, fun hw i hi lo hhi hlo => ?w16⟩
    case w8 =>
      obtain ⟨e, b, _⟩ := m
      obtain rfl := hw
      exact readWords_w8 e b raw
    case w16 =>
      obtain ⟨e, b, _⟩ := m
      obtain rfl := hw
      exact readWords_w16_getElem? hhi hlo
  case opCode => exact decode_command_two s.session x

end Sys2Proof.Machine
end

section
/-! A frame that comes back unchanged, and what a frame stands for (spec/43_frame_meaning_and_laws.md R151, R157). -/

namespace Sys2Proof.Machine

/-! ## The mirrored frame (R157) -/

/-- `decode_response` undoes `encode` up to the header: the emitted bytes of a well-formed frame hold its words. -/
theorem decodeIn_emit {m : Mode} {f : Frame} (hw : wellFormedFrame m f = true) : decodeIn m (emit m f) = .ok f.values := by
  rw [decodeIn_of_emit_length rfl, readWords_of_emit hw]

/-- Settles O31: ENCODE keeps the session, so DECODE_RESPONSE reads the emitted bytes under the mode they were emitted in. -/
theorem mirroredFrameDecodesToItsValues : Obligations.MirroredFrameDecodesToItsValues := by
  intro m f s hs hw
  have hencode : exec (.encode f) s = .next (finish (.bytes (emit m f)) s) := exec_of_wellFormed rfl hs hw
  have hsession : (finish (.bytes (emit m f)) s).session = some m := hs
  exact ⟨emit m f, _, hencode, finish_response s _, execDecodeResponse_of_ok hsession (decodeIn_emit hw)⟩

/-! ## The expansion of a frame (R151) -/

/-- The words transferred are the frame's own for a write and the words read back, as many as the frame has, for a read. -/
theorem transferredWords_of_length {f : Frame} {readBack : List Nat}
    (hread : f.isWrite = false → readBack.length = f.values.length) :
    transferredWords f readBack = if f.isWrite then f.values else readBack := by
  rw [transferredWords]
  split
  · rfl
  · next hdirection => exact List.take_of_length_le (hread (Bool.eq_false_of_not_eq_true hdirection)).le

@[simp] theorem length_expand (f : Frame) (readBack : List Nat) :
    (expand f readBack).length = (transferredWords f readBack).length := by
  simp [expand]

/-- Transaction `i` carries word `i`, at the base address plus `i`, in the frame's direction. -/
theorem expand_getElem? (f : Frame) (readBack : List Nat) (i : Nat) :
    (expand f readBack)[i]? = (transferredWords f readBack)[i]?.map (fun d => ⟨f.address + i, d, f.isWrite⟩) := by
  simp [expand, Function.comp_def]

theorem expandAll_append (xs ys : List (Frame × List Nat)) : expandAll (xs ++ ys) = expandAll xs ++ expandAll ys :=
  List.flatMap_append

theorem expandAll_singleton (f : Frame) (readBack : List Nat) : expandAll [(f, readBack)] = expand f readBack :=
  List.flatMap_singleton _ _

/-- Settles O49: the transactions follow the transferred words one by one; a sequence of frames expands frame by frame. -/
theorem expansionWalksTheAddresses : Obligations.ExpansionWalksTheAddresses := by
  refine ⟨fun f readBack hread => ⟨?count, fun i d hd => ?transaction⟩, expandAll_append, expandAll_singleton⟩
  case count =>
    rw [length_expand, transferredWords_of_length hread]
    split
    · rfl
    · next hdirection => exact hread (Bool.eq_false_of_not_eq_true hdirection)
  case transaction =>
    have hword : (transferredWords f readBack)[i]? = some d := by
      rw [transferredWords_of_length hread, ← hd]
      split <;> rfl
    rw [expand_getElem?, hword, Option.map_some]

end Sys2Proof.Machine
end

section
/-! The statuses an operation raises, when it raises them, and what it leaves then (spec/60_exceptions.md R172 to R183). -/

namespace Sys2Proof.Machine

/-! ## The checks of ENCODE in their order (R173, R174, R176, R181) -/

theorem burstFlagAgrees_iff (f : Frame) : burstFlagAgrees f = true ↔ (f.isBurst = true ↔ 1 < wordCount f) := by
  rw [burstFlagAgrees, beq_iff_eq, Bool.eq_iff_iff, decide_eq_true_iff]

theorem valuesFit_iff (m : Mode) (f : Frame) : valuesFit m f = true ↔ ∀ v ∈ f.values, v < 2 ^ wordBits m := by
  simp [valuesFit]

section
variable {m : Mode} {f : Frame} (hburst : ¬(m.burstCapable = false ∧ (f.isBurst = true ∨ 1 < wordCount f)))
include hburst

/-- The second check, reached when the first does not fire (R174). -/
theorem checkFrame_of_outOfRange (haddress : 2 ^ addressBits m ≤ f.address) :
    checkFrame m f = .error .addressOutOfRange := by
  rw [checkFrame, if_neg (by simpa using hburst), if_pos haddress]

/-- The third check, reached when the first two do not fire (R176). -/
theorem checkFrame_of_breaksModel (haddress : ¬ 2 ^ addressBits m ≤ f.address)
    (hmodel : wordCount f = 0 ∨ ¬(f.isBurst = true ↔ 1 < wordCount f) ∨ ∃ v ∈ f.values, 2 ^ wordBits m ≤ v) :
    checkFrame m f = .error .invalidFrame := by
  rw [checkFrame, if_neg (by simpa using hburst), if_neg haddress]
  rcases hmodel with hcount | hflag | ⟨v, hv, hwide⟩
  · rw [if_pos hcount]
  · have hdisagrees : (!burstFlagAgrees f) = true := by
      rwa [Bool.not_eq_true', Bool.eq_false_iff, ne_eq, burstFlagAgrees_iff]
    rw [if_pos hdisagrees, ite_self]
  · have hwideValue : (!valuesFit m f) = true := by
      rw [Bool.not_eq_true', Bool.eq_false_iff, ne_eq, valuesFit_iff]
      exact fun hfit => Nat.not_lt.mpr hwide (hfit v hv)
    rw [if_pos hwideValue, ite_self, ite_self]

end

/-- Settles O11: each of the three conditions, with those before it false, makes its own check the first to fire. -/
theorem encodeRaisesTheFirstErrorThatApplies : Obligations.EncodeRaisesTheFirstErrorThatApplies := by
  intro m f s hs
  refine ⟨fun ⟨hmode, hframe⟩ => ?burst, fun hburst haddress => ?address, fun hburst haddress hmodel => ?model⟩
  case burst => exact exec_of_checkFrame_error rfl hs (checkFrame_of_cannotBurst hmode hframe)
  case address => exact exec_of_checkFrame_error rfl hs (checkFrame_of_outOfRange hburst haddress)
  case model => exact exec_of_checkFrame_error rfl hs (checkFrame_of_breaksModel hburst haddress hmodel)

/-! ## How an instruction ends (R171) -/

theorem statusesOf_of_issuedFrame {i : Instr} {f : Frame} (h : issuedFrame i = some f) :
    statusesOf i = [.ok, .burstNotSupported, .addressOutOfRange, .invalidFrame, .noSession] := by
  cases i <;> cases h <;> rfl

/-- An instruction raises a status of its own over the state it found, or finishes with `OK` and a result. -/
theorem exec_raises_or_finishes (i : Instr) (s : State) :
    (∃ st ∈ statusesOf i, st ≠ .ok ∧ exec i s = .next (raise st s)) ∨ (∃ x u, exec i s = .next (finish x u)) := by
  rcases exec_cases i s with ⟨c, rfl, he⟩ | ⟨raw, rfl, he⟩ | ⟨f, hf, he⟩ <;> rw [he]
  · rcases execConfigure_cases c s with ⟨_, h⟩ | ⟨_, _, h⟩ | ⟨_, _, _, h⟩
    · exact .inl ⟨_, by simp [statusesOf], by decide, h⟩
    · exact .inl ⟨_, by simp [statusesOf], by decide, h⟩
    · exact .inr ⟨_, _, h⟩
  · rcases execDecodeResponse_cases raw s with ⟨_, h⟩ | ⟨_, _, _, h⟩ | ⟨_, _, _, h⟩
    · exact .inl ⟨_, by simp [statusesOf], by decide, h⟩
    · exact .inr ⟨_, _, h⟩
    · exact .inl ⟨_, by simp [statusesOf], by decide, h⟩
  · rw [statusesOf_of_issuedFrame hf]
    rcases encodeOperation_cases f s with ⟨_, h⟩ | ⟨_, _, _, h⟩ | ⟨m, st, _, hst, h⟩ <;> rw [h]
    · exact .inl ⟨_, by decide, by decide, rfl⟩
    · exact .inr ⟨_, _, rfl⟩
    · rcases encodeIn_eq_error hst with ⟨rfl, _⟩ | rfl | rfl <;> exact .inl ⟨_, by decide, by decide, rfl⟩

/-- A status other than `OK` on the response port was raised over the state the instruction found, and is one of its own. -/
theorem exec_of_status_ne_ok {i : Instr} {s t : State} {r : Response} (h : exec i s = .next t) (hr : t.response = some r)
    (hne : r.status ≠ .ok) : r.status ∈ statusesOf i ∧ t = raise r.status s := by
  rcases exec_raises_or_finishes i s with ⟨st, hmem, _, he⟩ | ⟨x, u, he⟩ <;> cases he.symm.trans h <;> cases hr
  · exact ⟨hmem, rfl⟩
  · exact absurd rfl hne

/-- Settles O38: raising a status writes the response port alone. -/
theorem raisedStatusChangesNothingElse : Obligations.RaisedStatusChangesNothingElse := by
  intro i s t r h hr hne
  obtain ⟨_, ht⟩ := exec_of_status_ne_ok h hr hne
  exact ht

/-! ## UnsupportedWidth (R172) -/

section
variable {c : CandidateMode} (hc : toMode c = none)
include hc

theorem encodeFrame_of_invalid (f : Frame) : encodeFrame c f = .error .unsupportedWidth := by
  rw [encodeFrame, hc]

theorem decodeRaw_of_invalid (raw : List Byte) : decodeRaw c raw = .error .unsupportedWidth := by
  rw [decodeRaw, hc]

end

/-- CONFIGURE alone has `UnsupportedWidth` among its statuses. -/
theorem eq_configure_of_unsupportedWidth_mem {i : Instr} (h : .unsupportedWidth ∈ statusesOf i) : ∃ c, i = .configure c := by
  cases i with
  | configure c => exact ⟨c, rfl⟩
  | _ => simp [statusesOf] at h

/-- Settles O16: both pure functions and CONFIGURE turn on whether the candidate stands for a mode, and `UnsupportedWidth` is a status
of CONFIGURE only. -/
theorem unsupportedWidthIsGuarded : Obligations.UnsupportedWidthIsGuarded := by
  refine ⟨fun c f raw h8 h16 => ?pure, fun c s hs h8 h16 => ?configure, fun i s t h ⟨r, hr⟩ => ?only⟩
  case pure =>
    have hc : toMode c = none := toMode_eq_none h8 h16
    exact ⟨encodeFrame_of_invalid hc f, decodeRaw_of_invalid hc raw⟩
  case configure => exact execConfigure_of_invalid hs (toMode_eq_none h8 h16)
  case only =>
    obtain ⟨hmem, _⟩ := exec_of_status_ne_ok h hr nofun
    exact eq_configure_of_unsupportedWidth_mem hmem

/-! ## MalformedResponse (R175) -/

/-- Settles O27: a length that is a header and whole words ends with `OK`, so the status shows that it is not. -/
theorem malformedResponseIsByLengthAlone : Obligations.MalformedResponseIsByLengthAlone := by
  intro m raw s hs
  refine ⟨fun h => ?onlyThen, fun hbad => execDecodeResponse_of_error hs (decodeIn_of_malformed hbad)⟩
  case onlyThen =>
    by_contra hgood
    obtain ⟨hheader, hwhole⟩ := not_or.mp hgood
    have hok : exec (.decodeResponse raw) s = .next (finish (.words (readWords m raw)) s) :=
      execDecodeResponse_of_ok hs (decodeIn_of_wholeWords (Nat.not_lt.mp hheader) (not_not.mp hwhole))
    cases hok.symm.trans h

/-! ## After a status (R183) -/

section
variable (s : State) (r : Option Response)

@[simp] theorem raise_setResponse (st : Status) : raise st (s.setResponse r) = raise st s := rfl

@[simp] theorem finish_setResponse (x : Result) : finish x (s.setResponse r) = finish x s := rfl

@[simp] theorem answer_setResponse (a : Except Status Result) : answer a (s.setResponse r) = answer a s := by
  cases a <;> rfl

theorem encodeOperation_setResponse (f : Frame) : encodeOperation f (s.setResponse r) = encodeOperation f s := by
  simp [encodeOperation]

theorem execDecodeResponse_setResponse (raw : List Byte) :
    execDecodeResponse raw (s.setResponse r) = execDecodeResponse raw s := by
  simp [execDecodeResponse]

theorem execConfigure_setResponse (c : CandidateMode) : execConfigure c (s.setResponse r) = execConfigure c s := rfl

/-- No instruction reads the response port, and every one writes it (R24). -/
theorem exec_setResponse (i : Instr) : exec i (s.setResponse r) = exec i s := by
  rcases exec_cases i s with ⟨c, rfl, _⟩ | ⟨raw, rfl, _⟩ | ⟨f, hf, he⟩
  · exact execConfigure_setResponse s r c
  · exact execDecodeResponse_setResponse s r raw
  · rw [he, exec_of_issuedFrame hf, encodeOperation_setResponse]

end

/-- Settles O39: a raised status leaves the state as it was but for the response port, which the next operation does not read. -/
theorem failedOperationLeavesNoTrace : Obligations.FailedOperationLeavesNoTrace := by
  intro i j s t r h hr hne
  obtain ⟨_, rfl⟩ := exec_of_status_ne_ok h hr hne
  exact exec_setResponse s _ j

/-! ## IllegalOperation (R179) -/

/-- Op code 3 is reserved, in every session (R82). -/
@[simp] theorem decode_command_three (session : Option Mode) (x : Operand) :
    decode session (.command 3#2 x) = .error .reservedOp := rfl

/-- An offer waiting first that decodes to no instruction is rejected. -/
theorem step_of_rejected {s : State} {o : Offer} {rest : List Input} {e : DecodeError} (h : s.inputs = .offer o :: rest)
    (hd : decode s.session o = .error e) : step s = reject e (s.setInputs rest) := by
  simp [step, takeInput, h, hd]

/-- Settles O43: the reserved op code decodes to no instruction under any session, and its rejection raises the status. -/
theorem reservedOpRaisesIllegalOperation : Obligations.ReservedOpRaisesIllegalOperation := by
  intro s x rest h
  exact step_of_rejected h (decode_command_three s.session x)

end Sys2Proof.Machine
end

section
/-! `parse_frame` as the inverse of `encode`, and the header patterns `encode` emits (spec/43_frame_meaning_and_laws.md R156, R158;
spec/30_encoding.md R81). -/

namespace Sys2Proof.Machine

/-! ## The frame whose header value and words are given (R156) -/

/-- The frame that the header value `hv` and the words `vs` stand for under a mode. -/
def frameOfHeader (m : Mode) (hv : Nat) (vs : List Nat) : Frame :=
  { address := hv % 2 ^ addressBits m
    isWrite := hv.testBit (8 * headerBytes m - 1)
    isBurst := m.burstCapable && hv.testBit (8 * headerBytes m - 2)
    values := vs }

theorem frameOfBytes_eq (m : Mode) (bytes : List Byte) :
    frameOfBytes m bytes = frameOfHeader m (valueOf (bytes.take (headerBytes m))) (readWords m bytes) := rfl

section
variable {m : Mode} {hv : Nat} {vs : List Nat}

theorem frameOfHeader_address_lt : (frameOfHeader m hv vs).address < 2 ^ addressBits m :=
  Nat.mod_lt _ (Nat.two_pow_pos _)

theorem frameOfHeader_burstCapable (h : (frameOfHeader m hv vs).isBurst = true) : m.burstCapable = true :=
  (Bool.and_eq_true_iff.mp h).1

/-- No bit of a header value is lost between the address and the flags (R71, R81). -/
theorem headerValue_frameOfHeader (h : hv < 2 ^ (8 * headerBytes m)) : headerValue m (frameOfHeader m hv vs) = hv := by
  have hbit (k : Nat) : hv % 2 ^ k + (if hv.testBit k then 2 ^ k else 0) = hv % 2 ^ (k + 1) := by
    rw [Nat.mod_pow_succ, ← Nat.toNat_testBit]
    cases hv.testBit k <;> simp
  rw [headerValue_eq frameOfHeader_address_lt frameOfHeader_burstCapable]
  rcases addressBits_cases m with ⟨hm, hbits⟩ | ⟨hm, hbits⟩
  · rw [← hbits] at h ⊢
    simpa [frameOfHeader, hm, ← hbits, hbit] using Nat.mod_eq_of_lt h
  · rw [← hbits] at h ⊢
    simp only [frameOfHeader, hm, ← hbits, Bool.true_and, Nat.add_sub_cancel, Nat.reduceSubDiff]
    rw [Nat.add_right_comm, hbit, hbit, Nat.mod_eq_of_lt h]

/-- A frame read from a header is well formed if its words fit, there is one at least, and its flag agrees with their count. -/
theorem wellFormedFrame_frameOfHeader (hcount : 1 ≤ vs.length)
    (hflag : (frameOfHeader m hv vs).isBurst = true ↔ 1 < vs.length) (hfit : ∀ v ∈ vs, v < 2 ^ wordBits m) :
    wellFormedFrame m (frameOfHeader m hv vs) = true := by
  refine (wellFormedFrame_iff _ _).mpr ⟨hcount, hflag, ?_, frameOfHeader_address_lt, hfit⟩
  by_cases hone : vs.length = 1
  · exact .inr hone
  · exact .inl (frameOfHeader_burstCapable (hflag.mpr (by omega)))

end

/-! ## What `parse_frame` accepts (R156) -/

theorem parseFrame_eq_some {m : Mode} {bytes : List Byte} {f : Frame} (h : parseFrame m bytes = some f) :
    headerBytes m + wordBytes m ≤ bytes.length ∧ (bytes.length - headerBytes m) % wordBytes m = 0 ∧
    burstFlagAgrees (frameOfBytes m bytes) = true ∧ f = frameOfBytes m bytes := by
  rw [parseFrame] at h
  split at h
  · cases h
  · next hlong =>
    split at h
    · cases h
    · next hwhole =>
      split at h
      · cases h
      · next hflag =>
        cases h
        exact ⟨Nat.not_lt.mp hlong, not_not.mp hwhole, by simpa using hflag, rfl⟩

section
variable {m : Mode} {raw : List Byte} (hwhole : (raw.length - headerBytes m) % wordBytes m = 0)
include hwhole

/-- The words read from whole words take the bytes after the header, each `S` of them. -/
theorem length_readWords_mul : (readWords m raw).length * wordBytes m = raw.length - headerBytes m := by
  rw [length_readWords, Nat.div_mul_cancel (Nat.dvd_of_mod_eq_zero hwhole)]

theorem flatMap_readWords : (readWords m raw).flatMap (be (wordBytes m)) = raw.drop (headerBytes m) := by
  rw [readWords_eq, ← length_readWords]
  exact flatMap_groupWords (wordBytes_one_or_two m) (by rw [List.length_drop, length_readWords_mul hwhole])

end

/-- Words read are words of the mode's width (R143). -/
theorem readWords_lt {m : Mode} {raw : List Byte} : ∀ w ∈ readWords m raw, w < 2 ^ wordBits m := by
  rw [readWords_eq, wordBits_eq]
  refine groupWords_lt (wordBytes_one_or_two m) ?_
  rw [List.length_drop]
  exact Nat.div_mul_le_self _ _

theorem wellFormedFrame_of_parseFrame {m : Mode} {bytes : List Byte} {f : Frame} (h : parseFrame m bytes = some f) :
    wellFormedFrame m f = true := by
  obtain ⟨hlong, hwhole, hflag, rfl⟩ := parseFrame_eq_some h
  refine wellFormedFrame_frameOfHeader ?count ((burstFlagAgrees_iff _).mp hflag) readWords_lt
  case count =>
    rw [length_readWords, Nat.le_div_iff_mul_le (wordBytes_pos m)]
    omega

/-- The bytes `parse_frame` accepts are those the frame it answers emits: header and words are each put back (R158). -/
theorem emit_of_parseFrame {m : Mode} {bytes : List Byte} {f : Frame} (h : parseFrame m bytes = some f) :
    emit m f = bytes := by
  obtain ⟨hlong, hwhole, _, rfl⟩ := parseFrame_eq_some h
  have hheader : (bytes.take (headerBytes m)).length = headerBytes m := by
    rw [List.length_take]
    omega
  calc emit m (frameOfBytes m bytes)
      = be (headerBytes m) (valueOf (bytes.take (headerBytes m))) ++ (readWords m bytes).flatMap (be (wordBytes m)) := by
        rw [emit_eq, frameOfBytes_eq, headerValue_frameOfHeader (valueOf_lt (headerBytes_cases m) hheader)]
        rfl
    _ = bytes.take (headerBytes m) ++ bytes.drop (headerBytes m) := by
        rw [be_valueOf (headerBytes_cases m) hheader, flatMap_readWords hwhole]
    _ = bytes := List.take_append_drop _ _

/-- A well-formed frame is encoded as the bytes emitted for it, by the pure function (R110). -/
theorem encodeFrame_of_wellFormed {m : Mode} {f : Frame} (hw : wellFormedFrame m f = true) :
    encodeFrame (candidate m) f = .ok (emit m f) := by
  rw [encodeFrame_candidate, encodeIn_of_wellFormed hw]

/-- Settles O32: an emitted frame parses as itself; accepted bytes hold a well-formed frame, whose header and words put back are
those bytes. -/
theorem parseFrameInvertsEncode : Obligations.ParseFrameInvertsEncode := by
  refine ⟨fun m f hw => ⟨emit m f, encodeFrame_of_wellFormed hw, parseFrame_emit hw⟩, fun m b f h => ?_⟩
  have hw := wellFormedFrame_of_parseFrame h
  exact ⟨hw, (encodeFrame_of_wellFormed hw).trans (congrArg _ (emit_of_parseFrame h))⟩

/-! ## The patterns `encode` emits (R81) -/

/-- Settles O17: the frame whose header is the given value, with one word of zeros, or two if the value's burst flag is set. -/
theorem everyHeaderPatternIsUsed : Obligations.EveryHeaderPatternIsUsed := by
  intro m hv hlt
  obtain ⟨vs, hcount, hflag, hzero⟩ : ∃ vs : List Nat, 1 ≤ vs.length ∧
      ((m.burstCapable && hv.testBit (8 * headerBytes m - 2)) = true ↔ 1 < vs.length) ∧ ∀ v ∈ vs, v = 0 := by
    cases m.burstCapable && hv.testBit (8 * headerBytes m - 2) with
    | false => exact ⟨[0], by simp⟩
    | true => exact ⟨[0, 0], by simp⟩
  have hw : wellFormedFrame m (frameOfHeader m hv vs) = true :=
    wellFormedFrame_frameOfHeader hcount hflag (fun v hv => hzero v hv ▸ Nat.two_pow_pos _)
  refine ⟨_, _, encodeFrame_of_wellFormed hw, ?_⟩
  rw [emit_take_header, headerValue_frameOfHeader hlt]

/-- Settles O18: the frame is well formed, so its length is a header and `N` words, and its flag bit and its count agree. -/
theorem encodeNeverEmitsAMalformedFrame : Obligations.EncodeNeverEmitsAMalformedFrame := by
  intro m f out h
  rw [encodeFrame_candidate] at h
  obtain ⟨hw, rfl⟩ := encodeIn_eq_ok h
  obtain ⟨hcount, hflag, hone, _, _⟩ := (wellFormedFrame_iff m f).mp hw
  obtain ⟨b0, rest, hemit, _, h6⟩ := emit_firstByte m f
  obtain ⟨_, _, hburst⟩ := headerValue_fields hw
  have hpayload : (emit m f).length - headerBytes m = wordCount f * wordBytes m := by
    rw [length_emit, Nat.add_sub_cancel_left]
  have hwords : ((emit m f).length - headerBytes m) / wordBytes m = wordCount f := by
    rw [hpayload, Nat.mul_div_cancel _ (wordBytes_pos m)]
  refine ⟨?long, ?whole, b0, rest, hemit, fun hm => ?burstBit, fun hm => ?oneWord⟩
  case long =>
    rw [length_emit]
    exact Nat.add_le_add_left (Nat.le_mul_of_pos_left _ hcount) _
  case whole => rw [hpayload, Nat.mul_mod_left]
  case burstBit =>
    rw [hm, Bool.true_and] at hburst
    rw [hwords, h6, hburst, hflag]
  case oneWord =>
    rw [hwords]
    exact hone.resolve_left (by simp [hm])

end Sys2Proof.Machine
end

section
/-! The decoder as the inverse of the encoder, format by format (spec/30_encoding.md R71, R77, R78, R81). -/

namespace Sys2Proof

/-! ## Headers: a flag, or two, over the address (R71) -/

/-- A value is its top bit over the bits below it. -/
theorem append_extractLsb'_of_getLsbD {n : Nat} {v : BitVec (1 + n)} {w : BitVec 1} (h : v.getLsbD n = w.getLsbD 0) :
    w ++ v.extractLsb' 0 n = v := by
  apply BitVec.eq_of_getLsbD_eq
  intro i hi
  rw [BitVec.getLsbD_append, BitVec.getLsbD_extractLsb']
  by_cases hlow : i < n
  · simp only [hlow, if_true, decide_true, Bool.true_and, Nat.zero_add]
  · obtain rfl : i = n := by omega
    rw [if_neg hlow, Nat.sub_self, h]

/-- A value is its two top bits over the bits below them. -/
theorem append_append_extractLsb'_of_getLsbD {n : Nat} {v : BitVec (1 + 1 + n)} {w b : BitVec 1}
    (hw : v.getLsbD (n + 1) = w.getLsbD 0) (hb : v.getLsbD n = b.getLsbD 0) : w ++ b ++ v.extractLsb' 0 n = v := by
  apply BitVec.eq_of_getLsbD_eq
  intro i hi
  rw [BitVec.getLsbD_append, BitVec.getLsbD_extractLsb', BitVec.getLsbD_append]
  by_cases hlow : i < n
  · simp only [hlow, if_true, decide_true, Bool.true_and, Nat.zero_add]
  · obtain rfl | rfl : i = n ∨ i = n + 1 := by omega
    · rw [if_neg hlow, Nat.sub_self, if_pos Nat.one_pos, hb]
    · rw [if_neg hlow, Nat.add_sub_cancel_left, if_neg (Nat.lt_irrefl 1), Nat.sub_self, hw]

theorem headerS7_of_bit {v : BitVec 8} {w : BitVec 1} (h : v.getLsbD 7 = w.getLsbD 0) :
    headerS7 w (v.extractLsb' 0 7) = [v] :=
  congrArg (fun x : BitVec 8 => [x]) (append_extractLsb'_of_getLsbD (n := 7) h)

theorem headerS6B_of_bits {v : BitVec 8} {w b : BitVec 1} (hw : v.getLsbD 7 = w.getLsbD 0) (hb : v.getLsbD 6 = b.getLsbD 0) :
    headerS6B w b (v.extractLsb' 0 6) = [v] :=
  congrArg (fun x : BitVec 8 => [x]) (append_append_extractLsb'_of_getLsbD (n := 6) hw hb)

/-- The two bytes of two bytes joined are those bytes. -/
theorem twoBytes_append (hi lo : Byte) : twoBytes (hi ++ lo) = [hi, lo] := by
  have hhigh : (hi ++ lo : BitVec (8 + 8)).extractLsb' 8 8 = hi := by
    apply BitVec.eq_of_getLsbD_eq
    intro i hi
    rw [BitVec.getLsbD_extractLsb', BitVec.getLsbD_append, if_neg (by omega), Nat.add_sub_cancel_left, decide_eq_true hi,
      Bool.true_and]
  rw [twoBytes, extract_append_low]
  exact congrArg (fun x : Byte => [x, lo]) hhigh

theorem headerX15_of_bit {hi lo : Byte} {w : BitVec 1} (h : (hi ++ lo : BitVec 16).getLsbD 15 = w.getLsbD 0) :
    headerX15 w ((hi ++ lo : BitVec 16).extractLsb' 0 15) = [hi, lo] :=
  (congrArg twoBytes (append_extractLsb'_of_getLsbD (n := 15) h)).trans (twoBytes_append hi lo)

theorem headerX14B_of_bits {hi lo : Byte} {w b : BitVec 1} (hw : (hi ++ lo : BitVec 16).getLsbD 15 = w.getLsbD 0)
    (hb : (hi ++ lo : BitVec 16).getLsbD 14 = b.getLsbD 0) :
    headerX14B w b ((hi ++ lo : BitVec 16).extractLsb' 0 14) = [hi, lo] :=
  (congrArg twoBytes (append_append_extractLsb'_of_getLsbD (n := 14) hw hb)).trans (twoBytes_append hi lo)

/-! ## Payloads (R77, R78) -/

theorem flatMap_twoBytes_of_pairBytes {bs : List Byte} {vs : List (BitVec 16)} (h : pairBytes bs = some vs) :
    vs.flatMap twoBytes = bs := by
  induction bs using pairBytes.induct generalizing vs with
  | case1 =>
    cases h
    rfl
  | case2 b => cases h
  | case3 hi lo rest ih =>
    obtain ⟨us, hus, rfl⟩ := Option.map_eq_some_iff.mp h
    rw [List.flatMap_cons, ih hus, twoBytes_append]
    rfl

/-- The payload read from bytes takes exactly those bytes. -/
theorem wire_of_decodePayload {w : WordWidth} {bs : List Byte} {p : Payload} (h : decodePayload w bs = .ok p) : p.wire = bs := by
  cases w with
  | w8 =>
    cases h
    rfl
  | w16 =>
    simp only [decodePayload] at h
    split at h
    · next vs hvs =>
      cases h
      exact flatMap_twoBytes_of_pairBytes hvs
    · cases h

theorem bind_decodePayload_wire (p : Payload) (k : Payload → Except DecodeError Instr) :
    (decodePayload p.width p.wire).bind k = k p := by
  rw [decodePayload_wire]
  rfl

theorem bind_decodePayload_datum (d : Datum) (k : Payload → Except DecodeError Instr) :
    (decodePayload d.width d.wire).bind k = k d.payload := by
  rw [decodePayload_datum]
  rfl

@[simp] theorem wire_payload (d : Datum) : d.payload.wire = d.wire := by
  cases d with
  | byte v => rfl
  | word v => exact List.flatMap_singleton twoBytes v

/-- A frame kind of one word is made from a payload of one word. -/
theorem map_one_eq_ok {p : Payload} {g : Datum → Instr} {i : Instr} (h : p.one.map g = .ok i) :
    ∃ d : Datum, p = d.payload ∧ i = g d := by
  unfold Payload.one at h
  split at h <;> cases h
  · exact ⟨.byte _, rfl, rfl⟩
  · exact ⟨.word _, rfl, rfl⟩

/-- A burst frame kind is made from a payload of two or more words. -/
theorem map_many_eq_ok {p : Payload} {g : Payload → Instr} {i : Instr} (h : p.many.map g = .ok i) :
    p.isBurst = true ∧ i = g p := by
  unfold Payload.many at h
  split at h <;> cases h
  next hvalues => exact ⟨by simp [Payload.isBurst, hvalues], rfl⟩

/-! ## Decoding what the encoder draws -/

theorem decodeS7_of_fields {hv : BitVec 8} {write : Bool} {a : BitVec 7} (ha : hv.extractLsb' 0 7 = a)
    (hw : hv.getLsbD 7 = write) (d : Datum) : decodeS7 hv d.payload = .ok (if write then .wrS7 a d else .rdS7 a d) := by
  simp only [decodeS7, ha, hw, one_payload]
  cases write <;> rfl

theorem decodeX15_of_fields {hv : BitVec 16} {write : Bool} {a : BitVec 15} (ha : hv.extractLsb' 0 15 = a)
    (hw : hv.getLsbD 15 = write) (d : Datum) : decodeX15 hv d.payload = .ok (if write then .wrX15 a d else .rdX15 a d) := by
  simp only [decodeX15, ha, hw, one_payload]
  cases write <;> rfl

section
variable {hv : BitVec 8} {write : Bool} {a : BitVec 6} (ha : hv.extractLsb' 0 6 = a) (hw : hv.getLsbD 7 = write)
include ha hw

theorem decodeS6B_of_one (hb : hv.getLsbD 6 = false) (d : Datum) :
    decodeS6B hv d.payload = .ok (if write then .wrS6B a d else .rdS6B a d) := by
  simp only [decodeS6B, ha, hw, hb, one_payload]
  cases write <;> rfl

theorem decodeS6B_of_many (hb : hv.getLsbD 6 = true) {p : Payload} (hp : p.isBurst = true) :
    decodeS6B hv p = .ok (if write then .wrbS6B a p else .rdbS6B a p) := by
  simp only [decodeS6B, ha, hw, hb, many_of_isBurst hp]
  cases write <;> rfl

end

section
variable {hv : BitVec 16} {write : Bool} {a : BitVec 14} (ha : hv.extractLsb' 0 14 = a) (hw : hv.getLsbD 15 = write)
include ha hw

theorem decodeX14B_of_one (hb : hv.getLsbD 14 = false) (d : Datum) :
    decodeX14B hv d.payload = .ok (if write then .wrX14B a d else .rdX14B a d) := by
  simp only [decodeX14B, ha, hw, hb, one_payload]
  cases write <;> rfl

theorem decodeX14B_of_many (hb : hv.getLsbD 14 = true) {p : Payload} (hp : p.isBurst = true) :
    decodeX14B hv p = .ok (if write then .wrbX14B a p else .rdbX14B a p) := by
  simp only [decodeX14B, ha, hw, hb, many_of_isBurst hp]
  cases write <;> rfl

end

/-- The flag of a header with one flag is read back. -/
theorem getLsbD_flag {n : Nat} (write : Bool) (a : BitVec n) : (BitVec.ofBool write ++ a).getLsbD n = write :=
  (getLsbD_append_flag _ a).trans (by simp)

/-- The first flag of a header with two flags is read back. -/
theorem getLsbD_writeFlag {n : Nat} (write : Bool) (b : BitVec 1) (a : BitVec n) :
    (BitVec.ofBool write ++ b ++ a).getLsbD (n + 1) = write :=
  (getLsbD_append_flag₂ _ b a).trans (by simp)

theorem decodeFrame_S7 (write : Bool) (a : BitVec 7) (d : Datum) :
    decodeFrame ⟨false, false, d.width⟩ (headerS7 (.ofBool write) a ++ d.wire) =
      .ok (if write then .wrS7 a d else .rdS7 a d) :=
  (bind_decodePayload_datum d _).trans (decodeS7_of_fields (extract_append_low _ a) (getLsbD_flag write a) d)

theorem decodeFrame_S6B_one (write : Bool) (a : BitVec 6) (d : Datum) :
    decodeFrame ⟨false, true, d.width⟩ (headerS6B (.ofBool write) 0#1 a ++ d.wire) =
      .ok (if write then .wrS6B a d else .rdS6B a d) :=
  (bind_decodePayload_datum d _).trans
    (decodeS6B_of_one (extract_append_low _ a) (getLsbD_writeFlag write _ a) (getLsbD_append_flag₁ _ _ a) d)

theorem decodeFrame_S6B_many (write : Bool) (a : BitVec 6) {p : Payload} (hp : p.isBurst = true) :
    decodeFrame ⟨false, true, p.width⟩ (headerS6B (.ofBool write) 1#1 a ++ p.wire) =
      .ok (if write then .wrbS6B a p else .rdbS6B a p) :=
  (bind_decodePayload_wire p _).trans
    (decodeS6B_of_many (extract_append_low _ a) (getLsbD_writeFlag write _ a) (getLsbD_append_flag₁ _ _ a) hp)

theorem decodeFrame_twoBytes (burst : Bool) (v : BitVec 16) (w : WordWidth) (bs : List Byte) :
    decodeFrame ⟨true, burst, w⟩ (twoBytes v ++ bs) =
      (decodePayload w bs).bind (if burst then decodeX14B v else decodeX15 v) := by
  have h := append_twoBytes v
  show (decodePayload w bs).bind (if burst then decodeX14B (v.extractLsb' 8 8 ++ v.extractLsb' 0 8)
    else decodeX15 (v.extractLsb' 8 8 ++ v.extractLsb' 0 8)) = _
  rw [h]

theorem decodeFrame_X15 (write : Bool) (a : BitVec 15) (d : Datum) :
    decodeFrame ⟨true, false, d.width⟩ (headerX15 (.ofBool write) a ++ d.wire) =
      .ok (if write then .wrX15 a d else .rdX15 a d) := by
  rw [headerX15, decodeFrame_twoBytes, bind_decodePayload_datum]
  exact decodeX15_of_fields (extract_append_low _ a) (getLsbD_flag write a) d

theorem decodeFrame_X14B_one (write : Bool) (a : BitVec 14) (d : Datum) :
    decodeFrame ⟨true, true, d.width⟩ (headerX14B (.ofBool write) 0#1 a ++ d.wire) =
      .ok (if write then .wrX14B a d else .rdX14B a d) := by
  rw [headerX14B, decodeFrame_twoBytes, bind_decodePayload_datum]
  exact decodeX14B_of_one (extract_append_low _ a) (getLsbD_writeFlag write _ a) (getLsbD_append_flag₁ _ _ a) d

theorem decodeFrame_X14B_many (write : Bool) (a : BitVec 14) {p : Payload} (hp : p.isBurst = true) :
    decodeFrame ⟨true, true, p.width⟩ (headerX14B (.ofBool write) 1#1 a ++ p.wire) =
      .ok (if write then .wrbX14B a p else .rdbX14B a p) := by
  rw [headerX14B, decodeFrame_twoBytes, bind_decodePayload_wire]
  exact decodeX14B_of_many (extract_append_low _ a) (getLsbD_writeFlag write _ a) (getLsbD_append_flag₁ _ _ a) hp

/-- Settles O33: a frame kind is its header format's decoder applied to the header the encoder drew; an operation has its own op
code. -/
theorem decodeOfEncodeIsTheInstruction : Obligations.DecodeOfEncodeIsTheInstruction := by
  intro i session hi hmode
  cases i with
  | configure c => rfl
  | encode f => rfl
  | decodeResponse raw => rfl
  | rdS7 a p =>
    rw [hmode _ rfl]
    exact decodeFrame_S7 false a p
  | wrS7 a v =>
    rw [hmode _ rfl]
    exact decodeFrame_S7 true a v
  | rdS6B a p =>
    rw [hmode _ rfl]
    exact decodeFrame_S6B_one false a p
  | wrS6B a v =>
    rw [hmode _ rfl]
    exact decodeFrame_S6B_one true a v
  | rdbS6B a ps =>
    rw [hmode _ rfl]
    exact decodeFrame_S6B_many false a hi
  | wrbS6B a vs =>
    rw [hmode _ rfl]
    exact decodeFrame_S6B_many true a hi
  | rdX15 a p =>
    rw [hmode _ rfl]
    exact decodeFrame_X15 false a p
  | wrX15 a v =>
    rw [hmode _ rfl]
    exact decodeFrame_X15 true a v
  | rdX14B a p =>
    rw [hmode _ rfl]
    exact decodeFrame_X14B_one false a p
  | wrX14B a v =>
    rw [hmode _ rfl]
    exact decodeFrame_X14B_one true a v
  | rdbX14B a ps =>
    rw [hmode _ rfl]
    exact decodeFrame_X14B_many false a hi
  | wrbX14B a vs =>
    rw [hmode _ rfl]
    exact decodeFrame_X14B_many true a hi

/-! ## Encoding what was decoded -/

/-- The instruction is well formed and its wire form is `bytes`. -/
def EncodesTo (i : Instr) (bytes : List Byte) : Prop := i.wellFormed = true ∧ encode i = .frame bytes

/-- A frame kind of one word, read from a payload, puts back the payload behind its header. -/
theorem encodesTo_of_one {p : Payload} {g : Datum → Instr} {i : Instr} {header drawn : List Byte} (h : p.one.map g = .ok i)
    (hheader : drawn = header) (hg : ∀ d, EncodesTo (g d) (drawn ++ d.wire)) : EncodesTo i (header ++ p.wire) := by
  obtain ⟨d, rfl, rfl⟩ := map_one_eq_ok h
  rw [wire_payload, ← hheader]
  exact hg d

/-- A burst frame kind, read from a payload, puts back the payload behind its header. -/
theorem encodesTo_of_many {p : Payload} {g : Payload → Instr} {i : Instr} {header drawn : List Byte} (h : p.many.map g = .ok i)
    (hheader : drawn = header) (hg : ∀ q : Payload, q.isBurst = true → EncodesTo (g q) (drawn ++ q.wire)) :
    EncodesTo i (header ++ p.wire) := by
  obtain ⟨hp, rfl⟩ := map_many_eq_ok h
  rw [← hheader]
  exact hg p hp

theorem decodeS7_encodesTo {hv : Byte} {p : Payload} {i : Instr} (h : decodeS7 hv p = .ok i) : EncodesTo i ([hv] ++ p.wire) := by
  simp only [decodeS7] at h
  split at h
  · next hw => exact encodesTo_of_one h (headerS7_of_bit (w := 1#1) hw) (fun _ => ⟨rfl, rfl⟩)
  · next hw => exact encodesTo_of_one h (headerS7_of_bit (w := 0#1) (by simpa using hw)) (fun _ => ⟨rfl, rfl⟩)

theorem decodeS6B_encodesTo {hv : Byte} {p : Payload} {i : Instr} (h : decodeS6B hv p = .ok i) :
    EncodesTo i ([hv] ++ p.wire) := by
  simp only [decodeS6B] at h
  split at h
  · next hw hb => exact encodesTo_of_one h (headerS6B_of_bits (w := 0#1) (b := 0#1) hw hb) (fun _ => ⟨rfl, rfl⟩)
  · next hw hb => exact encodesTo_of_one h (headerS6B_of_bits (w := 1#1) (b := 0#1) hw hb) (fun _ => ⟨rfl, rfl⟩)
  · next hw hb => exact encodesTo_of_many h (headerS6B_of_bits (w := 0#1) (b := 1#1) hw hb) (fun _ hq => ⟨hq, rfl⟩)
  · next hw hb => exact encodesTo_of_many h (headerS6B_of_bits (w := 1#1) (b := 1#1) hw hb) (fun _ hq => ⟨hq, rfl⟩)

theorem decodeX15_encodesTo {hi lo : Byte} {p : Payload} {i : Instr} (h : decodeX15 (hi ++ lo) p = .ok i) :
    EncodesTo i ([hi, lo] ++ p.wire) := by
  simp only [decodeX15] at h
  split at h
  · next hw => exact encodesTo_of_one h (headerX15_of_bit (w := 1#1) hw) (fun _ => ⟨rfl, rfl⟩)
  · next hw =>
    exact encodesTo_of_one h (headerX15_of_bit (w := 0#1) (Bool.eq_false_of_not_eq_true hw)) (fun _ => ⟨rfl, rfl⟩)

theorem decodeX14B_encodesTo {hi lo : Byte} {p : Payload} {i : Instr} (h : decodeX14B (hi ++ lo) p = .ok i) :
    EncodesTo i ([hi, lo] ++ p.wire) := by
  simp only [decodeX14B] at h
  split at h
  · next hw hb => exact encodesTo_of_one h (headerX14B_of_bits (w := 0#1) (b := 0#1) hw hb) (fun _ => ⟨rfl, rfl⟩)
  · next hw hb => exact encodesTo_of_one h (headerX14B_of_bits (w := 1#1) (b := 0#1) hw hb) (fun _ => ⟨rfl, rfl⟩)
  · next hw hb => exact encodesTo_of_many h (headerX14B_of_bits (w := 0#1) (b := 1#1) hw hb) (fun _ hq => ⟨hq, rfl⟩)
  · next hw hb => exact encodesTo_of_many h (headerX14B_of_bits (w := 1#1) (b := 1#1) hw hb) (fun _ hq => ⟨hq, rfl⟩)

/-- What a payload behind a header decodes to puts back both, if the header's decoder does. -/
theorem encodesTo_of_payload {w : WordWidth} {header bs : List Byte} {k : Payload → Except DecodeError Instr} {i : Instr}
    (hk : ∀ p, k p = .ok i → EncodesTo i (header ++ p.wire)) (h : (decodePayload w bs).bind k = .ok i) :
    EncodesTo i (header ++ bs) := by
  cases hp : decodePayload w bs with
  | error e =>
    rw [hp] at h
    cases h
  | ok p =>
    rw [hp] at h
    rw [← wire_of_decodePayload hp]
    exact hk p h

/-- Bytes that decode are the encoding of what they decode to, which is well formed (R78, R81). -/
theorem decodeFrame_encodesTo {m : Mode} {bs : List Byte} {i : Instr} (h : decodeFrame m bs = .ok i) : EncodesTo i bs := by
  obtain ⟨extended, burst, w⟩ := m
  simp only [decodeFrame] at h
  split at h
  · refine encodesTo_of_payload (header := [_]) (fun p hp => ?_) h
    cases burst with
    | false => exact decodeS7_encodesTo hp
    | true => exact decodeS6B_encodesTo hp
  · refine encodesTo_of_payload (header := [_, _]) (fun p hp => ?_) h
    cases burst with
    | false => exact decodeX15_encodesTo hp
    | true => exact decodeX14B_encodesTo hp
  all_goals cases h

/-- A command decodes to an operation, which is well formed and belongs to no mode (R82). -/
theorem decodeCommand_eq_ok {op : BitVec 2} {x : Operand} {i : Instr} (h : decodeCommand op x = .ok i) :
    i.wellFormed = true ∧ i.frameMode = none := by
  unfold decodeCommand at h
  split at h
  · cases h
    exact ⟨rfl, rfl⟩
  · split at h
    · cases h
      exact ⟨rfl, rfl⟩
    · split at h <;> cases h
      exact ⟨rfl, rfl⟩

/-- Settles O34: a command decodes to an operation; a frame decodes under the session's mode, to a frame kind of that mode that puts
its bytes back. -/
theorem decodedFramesEncodeToThemselves : Obligations.DecodedFramesEncodeToThemselves := by
  intro session o i h
  cases o with
  | command op x =>
    obtain ⟨hwf, hmode⟩ := decodeCommand_eq_ok h
    refine ⟨hwf, fun m hm => ?_, fun bytes ho => ?_⟩
    · cases hmode.symm.trans hm
    · cases ho
  | frame bs =>
    cases session with
    | none => cases h
    | some m =>
      obtain ⟨hwf, hencode⟩ := decodeFrame_encodesTo h
      have hmode : i.frameMode = some m := decodeFrame_frameMode h
      exact ⟨hwf, fun m' hm => hmode.symm.trans hm, fun bytes ho => ⟨by simp [hmode], by cases ho; exact hencode⟩⟩

end Sys2Proof
end

section
/-! The pictures of the headers and the arithmetic of the header value are one layout (spec/30_encoding.md R71, R75). -/

namespace Sys2Proof.Machine

/-! ## The value of a header (R71, R75) -/

section
variable {n : Nat} (write burst : Bool) (a : BitVec n)

theorem toNat_flag : (BitVec.ofBool write ++ a).toNat = a.toNat + if write then 2 ^ n else 0 := by
  rw [BitVec.toNat_append, ← Nat.shiftLeft_add_eq_or_of_lt a.isLt, Nat.shiftLeft_eq, Nat.add_comm]
  cases write <;> simp

theorem toNat_flags : (BitVec.ofBool write ++ BitVec.ofBool burst ++ a).toNat =
    a.toNat + (if write then 2 ^ (n + 1) else 0) + if burst then 2 ^ n else 0 := by
  rw [BitVec.toNat_append, ← Nat.shiftLeft_add_eq_or_of_lt a.isLt, Nat.shiftLeft_eq, toNat_flag]
  cases write <;> cases burst <;> simp <;> omega

end

theorem singleton_eq_be (v : BitVec 8) : [v] = be 1 v.toNat := by
  rw [be_one, BitVec.ofNat_toNat, BitVec.setWidth_eq]

theorem twoBytes_eq_be (v : BitVec 16) : twoBytes v = be 2 v.toNat := by
  have hhigh : v.extractLsb' 8 8 = BitVec.ofNat 8 (v.toNat / 256) := by
    apply BitVec.eq_of_toNat_eq
    simp [Nat.shiftRight_eq_div_pow]
  rw [be_two, twoBytes, hhigh]
  rfl

theorem headerS7_eq_be (write : Bool) (a : BitVec 7) :
    headerS7 (.ofBool write) a = be 1 (a.toNat + if write then 2 ^ 7 else 0) := by
  rw [← toNat_flag]
  exact singleton_eq_be _

theorem headerS6B_eq_be (write burst : Bool) (a : BitVec 6) : headerS6B (.ofBool write) (.ofBool burst) a =
    be 1 (a.toNat + (if write then 2 ^ 7 else 0) + if burst then 2 ^ 6 else 0) := by
  rw [← toNat_flags]
  exact singleton_eq_be _

theorem headerX15_eq_be (write : Bool) (a : BitVec 15) :
    headerX15 (.ofBool write) a = be 2 (a.toNat + if write then 2 ^ 15 else 0) := by
  rw [← toNat_flag]
  exact twoBytes_eq_be _

theorem headerX14B_eq_be (write burst : Bool) (a : BitVec 14) : headerX14B (.ofBool write) (.ofBool burst) a =
    be 2 (a.toNat + (if write then 2 ^ 15 else 0) + if burst then 2 ^ 14 else 0) := by
  rw [← toNat_flags]
  exact twoBytes_eq_be _

/-! ## The payload (R77) -/

theorem wire_eq_flatMap_be (p : Payload) : p.wire = p.values.flatMap (be (p.width.bits / 8)) := by
  cases p with
  | bytes vs =>
    have hlength : (Payload.bytes vs).width.bits / 8 = 1 := by simp [Payload.width, WordWidth.bits]
    rw [hlength, Payload.wire, Payload.values, List.flatMap_map, ← funext singleton_eq_be, List.flatMap_singleton']
  | words vs =>
    have hlength : (Payload.words vs).width.bits / 8 = 2 := by simp [Payload.width, WordWidth.bits]
    rw [hlength, Payload.wire, Payload.values, List.flatMap_map, ← funext twoBytes_eq_be]

theorem values_payload (d : Datum) : d.payload.values = [d.value] := by cases d <;> rfl

theorem width_payload (d : Datum) : d.payload.width = d.width := by cases d <;> rfl

theorem wire_eq_flatMap_be_value (d : Datum) : d.wire = [d.value].flatMap (be (d.width.bits / 8)) := by
  rw [← wire_payload, wire_eq_flatMap_be, values_payload, width_payload]

/-! ## A frame kind emits what its picture draws -/

/-- The bytes emitted for a well-formed frame are those of a header of its value and of its words' wire form. -/
theorem emit_eq_drawn {m : Mode} {f : Frame} {header payload : List Byte} (hw : wellFormedFrame m f = true)
    (hheader : header = be (headerBytes m) (f.address + (if f.isWrite then 2 ^ (8 * headerBytes m - 1) else 0)
      + (if f.isBurst then 2 ^ (8 * headerBytes m - 2) else 0)))
    (hpayload : payload = f.values.flatMap (be (wordBytes m))) : emit m f = header ++ payload := by
  rw [emit_of_wellFormed hw, hheader, hpayload]

/-- What a well-formed frame kind issues: a frame well formed for its mode, emitted there as the kind's own encoding. -/
def IssuesItsEncoding (i : Instr) (m : Mode) : Prop :=
  ∃ f, issuedFrame i = some f ∧ wellFormedFrame m f = true ∧ encode i = .frame (emit m f)

section
variable {i : Instr} {e b write : Bool} {a : Nat} {header : List Byte}

theorem issuesItsEncoding_single {d : Datum} (hi : issuedFrame i = some (singleFrame a write d))
    (ha : a < 2 ^ addressBits ⟨e, b, d.width⟩) (hencode : encode i = .frame (header ++ d.wire))
    (hheader : header = be (headerBytes ⟨e, b, d.width⟩)
      (a + if write then 2 ^ (8 * headerBytes ⟨e, b, d.width⟩ - 1) else 0)) : IssuesItsEncoding i ⟨e, b, d.width⟩ := by
  have hw : wellFormedFrame ⟨e, b, d.width⟩ (singleFrame a write d) = true := wellFormedFrame_singleFrame ha
  exact ⟨_, hi, hw, by rw [hencode, emit_eq_drawn hw hheader (wire_eq_flatMap_be_value d)]⟩

theorem issuesItsEncoding_burst {p : Payload} (hi : issuedFrame i = some (burstFrame a write p))
    (ha : a < 2 ^ addressBits ⟨e, true, p.width⟩) (hp : p.isBurst = true) (hencode : encode i = .frame (header ++ p.wire))
    (hheader : header = be (headerBytes ⟨e, true, p.width⟩)
      (a + (if write then 2 ^ (8 * headerBytes ⟨e, true, p.width⟩ - 1) else 0)
        + 2 ^ (8 * headerBytes ⟨e, true, p.width⟩ - 2))) : IssuesItsEncoding i ⟨e, true, p.width⟩ := by
  have hw : wellFormedFrame ⟨e, true, p.width⟩ (burstFrame a write p) = true :=
    wellFormedFrame_burstFrame ha (of_decide_eq_true hp)
  exact ⟨_, hi, hw, by rw [hencode, emit_eq_drawn hw hheader (wire_eq_flatMap_be p)]⟩

end

/-- Every well-formed frame kind, in its own mode, is emitted as it is drawn. -/
theorem frameKind_issuesItsEncoding {i : Instr} {m : Mode} (hi : i.wellFormed = true) (hm : i.frameMode = some m) :
    IssuesItsEncoding i m := by
  cases i <;> cases hm
  case rdS7 a p => exact issuesItsEncoding_single rfl a.isLt rfl (headerS7_eq_be false a)
  case wrS7 a v => exact issuesItsEncoding_single rfl a.isLt rfl (headerS7_eq_be true a)
  case rdS6B a p => exact issuesItsEncoding_single rfl a.isLt rfl (headerS6B_eq_be false false a)
  case wrS6B a v => exact issuesItsEncoding_single rfl a.isLt rfl (headerS6B_eq_be true false a)
  case rdbS6B a ps => exact issuesItsEncoding_burst rfl a.isLt hi rfl (headerS6B_eq_be false true a)
  case wrbS6B a vs => exact issuesItsEncoding_burst rfl a.isLt hi rfl (headerS6B_eq_be true true a)
  case rdX15 a p => exact issuesItsEncoding_single rfl a.isLt rfl (headerX15_eq_be false a)
  case wrX15 a v => exact issuesItsEncoding_single rfl a.isLt rfl (headerX15_eq_be true a)
  case rdX14B a p => exact issuesItsEncoding_single rfl a.isLt rfl (headerX14B_eq_be false false a)
  case wrX14B a v => exact issuesItsEncoding_single rfl a.isLt rfl (headerX14B_eq_be true false a)
  case rdbX14B a ps => exact issuesItsEncoding_burst rfl a.isLt hi rfl (headerX14B_eq_be false true a)
  case wrbX14B a vs => exact issuesItsEncoding_burst rfl a.isLt hi rfl (headerX14B_eq_be true true a)

/-- Settles O24: the value of the drawn header is the header value of the frame issued, and the words' wire forms are their big-endian
bytes. -/
theorem frameKindsEmitTheirOwnEncoding : Obligations.FrameKindsEmitTheirOwnEncoding := by
  intro i m s hi hm hs
  obtain ⟨f, hissued, hw, hencode⟩ := frameKind_issuesItsEncoding hi hm
  exact ⟨emit m f, hencode, exec_of_wellFormed hissued hs hw⟩

end Sys2Proof.Machine
end

section
/-! The decoder and `parse_frame` accept the same bytes (spec/30_encoding.md R81, spec/43_frame_meaning_and_laws.md R156). -/

namespace Sys2Proof.Machine

/-! ## What decodes parses, and what parses decodes -/

/-- What decodes parses, as the frame the decoded instruction issues. -/
theorem parseFrame_of_decodeFrame {m : Mode} {bytes : List Byte} {i : Instr} (h : decodeFrame m bytes = .ok i) :
    ∃ f, issuedFrame i = some f ∧ parseFrame m bytes = some f := by
  obtain ⟨hi, hbytes⟩ := decodeFrame_encodesTo h
  obtain ⟨f, hissued, hw, hencode⟩ := frameKind_issuesItsEncoding hi (decodeFrame_frameMode h)
  cases hencode.symm.trans hbytes
  exact ⟨f, hissued, parseFrame_emit hw⟩

theorem exists_toNat_eq {n a : Nat} (h : a < 2 ^ n) : ∃ x : BitVec n, x.toNat = a := ⟨.ofNatLT a h, rfl⟩

theorem exists_datum {w : WordWidth} {v : Nat} (h : v < 2 ^ w.bits) : ∃ d : Datum, d.width = w ∧ d.value = v := by
  obtain ⟨x, hx⟩ := exists_toNat_eq h
  cases w with
  | w8 => exact ⟨.byte x, rfl, hx⟩
  | w16 => exact ⟨.word x, rfl, hx⟩

theorem exists_payload {w : WordWidth} {vs : List Nat} (h : ∀ v ∈ vs, v < 2 ^ w.bits) :
    ∃ p : Payload, p.width = w ∧ p.values = vs := by
  obtain ⟨xs, hxs⟩ : ∃ xs : List (BitVec w.bits), xs.map BitVec.toNat = vs := by
    refine ⟨vs.map (BitVec.ofNat w.bits), ?_⟩
    rw [List.map_map]
    exact (List.map_congr_left fun v hv => Nat.mod_eq_of_lt (h v hv)).trans (List.map_id vs)
  cases w with
  | w8 => exact ⟨.bytes xs, rfl, hxs⟩
  | w16 => exact ⟨.words xs, rfl, hxs⟩

/-- Every well-formed frame of one word is the frame of a frame kind of its mode. -/
theorem exists_singleKind {m : Mode} {a : Nat} {write : Bool} {d : Datum} (ha : a < 2 ^ addressBits m)
    (hd : d.width = m.wordWidth) :
    ∃ i : Instr, i.wellFormed = true ∧ i.frameMode = some m ∧ issuedFrame i = some (singleFrame a write d) := by
  obtain ⟨x, rfl⟩ := exists_toNat_eq ha
  obtain ⟨e, b, w⟩ := m
  obtain rfl := hd
  cases e <;> cases b <;> cases write
  · exact ⟨.rdS7 x d, rfl, rfl, rfl⟩
  · exact ⟨.wrS7 x d, rfl, rfl, rfl⟩
  · exact ⟨.rdS6B x d, rfl, rfl, rfl⟩
  · exact ⟨.wrS6B x d, rfl, rfl, rfl⟩
  · exact ⟨.rdX15 x d, rfl, rfl, rfl⟩
  · exact ⟨.wrX15 x d, rfl, rfl, rfl⟩
  · exact ⟨.rdX14B x d, rfl, rfl, rfl⟩
  · exact ⟨.wrX14B x d, rfl, rfl, rfl⟩

/-- Every well-formed burst frame is the frame of a frame kind of its mode. -/
theorem exists_burstKind {m : Mode} {a : Nat} {write : Bool} {p : Payload} (hm : m.burstCapable = true)
    (ha : a < 2 ^ addressBits m) (hp : p.width = m.wordWidth) (hmany : p.isBurst = true) :
    ∃ i : Instr, i.wellFormed = true ∧ i.frameMode = some m ∧ issuedFrame i = some (burstFrame a write p) := by
  obtain ⟨x, rfl⟩ := exists_toNat_eq ha
  obtain ⟨e, b, w⟩ := m
  obtain rfl := hp
  obtain rfl := hm
  cases e <;> cases write
  · exact ⟨.rdbS6B x p, hmany, rfl, rfl⟩
  · exact ⟨.wrbS6B x p, hmany, rfl, rfl⟩
  · exact ⟨.rdbX14B x p, hmany, rfl, rfl⟩
  · exact ⟨.wrbX14B x p, hmany, rfl, rfl⟩

/-- Every frame well formed for a mode is issued by a frame kind of that mode (R78). -/
theorem exists_frameKind {m : Mode} {f : Frame} (hw : wellFormedFrame m f = true) :
    ∃ i : Instr, i.wellFormed = true ∧ i.frameMode = some m ∧ issuedFrame i = some f := by
  obtain ⟨hcount, hflag, _, haddress, hfit⟩ := (wellFormedFrame_iff m f).mp hw
  have hburst := wellFormedFrame_burst hw
  obtain ⟨a, write, burst, vs⟩ := f
  cases burst with
  | false =>
    have hone : vs.length = 1 := by
      have : ¬ 1 < vs.length := fun h => Bool.false_ne_true (hflag.mpr h)
      exact Nat.le_antisymm (Nat.not_lt.mp this) hcount
    obtain ⟨v, rfl⟩ := List.length_eq_one_iff.mp hone
    obtain ⟨d, hd, rfl⟩ := exists_datum (hfit v List.mem_cons_self)
    exact exists_singleKind haddress hd
  | true =>
    obtain ⟨p, hp, rfl⟩ := exists_payload hfit
    exact exists_burstKind (hburst rfl) haddress hp (decide_eq_true (hflag.mp rfl))

/-- What parses decodes, to a frame kind that issues the parsed frame. -/
theorem decodeFrame_of_parseFrame {m : Mode} {bytes : List Byte} {f : Frame} (h : parseFrame m bytes = some f) :
    ∃ i, issuedFrame i = some f ∧ decodeFrame m bytes = .ok i := by
  obtain ⟨i, hi, hm, hissued⟩ := exists_frameKind (wellFormedFrame_of_parseFrame h)
  obtain ⟨g, hg, _, hencode⟩ := frameKind_issuesItsEncoding hi hm
  cases hissued.symm.trans hg
  refine ⟨i, hissued, ?_⟩
  have hdecode := decodeOfEncodeIsTheInstruction i (some m) hi (fun m' hm' => hm.symm.trans hm')
  rwa [hencode, emit_of_parseFrame h] at hdecode

/-! ## The errors of a frame in wire form (R81) -/

/-- The errors that say a frame's bytes are malformed. -/
def malformedErrors : List DecodeError := [.shortHeader, .partialWord, .noWord, .burstMismatch]

theorem reject_of_malformed {e : DecodeError} (h : e ∈ malformedErrors) (s : State) :
    reject e s = .refused (.malformedFrame e) := by
  cases e with
  | reservedOp => simp [malformedErrors] at h
  | noMode => simp [malformedErrors] at h
  | _ => rfl

theorem map_one_eq_error {p : Payload} {g : Datum → Instr} {e : DecodeError} (h : p.one.map g = .error e) :
    e ∈ malformedErrors := by
  unfold Payload.one at h
  split at h <;> cases h <;> decide

theorem map_many_eq_error {p : Payload} {g : Payload → Instr} {e : DecodeError} (h : p.many.map g = .error e) :
    e ∈ malformedErrors := by
  unfold Payload.many at h
  split at h <;> cases h <;> decide

theorem decodeS7_eq_error {hv : BitVec 8} {p : Payload} {e : DecodeError} (h : decodeS7 hv p = .error e) :
    e ∈ malformedErrors := by
  simp only [decodeS7] at h
  split at h <;> exact map_one_eq_error h

theorem decodeX15_eq_error {hv : BitVec 16} {p : Payload} {e : DecodeError} (h : decodeX15 hv p = .error e) :
    e ∈ malformedErrors := by
  simp only [decodeX15] at h
  split at h <;> exact map_one_eq_error h

theorem decodeS6B_eq_error {hv : BitVec 8} {p : Payload} {e : DecodeError} (h : decodeS6B hv p = .error e) :
    e ∈ malformedErrors := by
  simp only [decodeS6B] at h
  split at h
  · exact map_one_eq_error h
  · exact map_one_eq_error h
  · exact map_many_eq_error h
  · exact map_many_eq_error h

theorem decodeX14B_eq_error {hv : BitVec 16} {p : Payload} {e : DecodeError} (h : decodeX14B hv p = .error e) :
    e ∈ malformedErrors := by
  simp only [decodeX14B] at h
  split at h
  · exact map_one_eq_error h
  · exact map_one_eq_error h
  · exact map_many_eq_error h
  · exact map_many_eq_error h

theorem bind_decodePayload_eq_error {w : WordWidth} {bs : List Byte} {k : Payload → Except DecodeError Instr} {e : DecodeError}
    (hk : ∀ p, k p = .error e → e ∈ malformedErrors) (h : (decodePayload w bs).bind k = .error e) : e ∈ malformedErrors := by
  cases w with
  | w8 => exact hk _ h
  | w16 =>
    simp only [decodePayload] at h
    split at h
    · exact hk _ h
    · cases h
      decide

/-- Bytes that are no frame are malformed by one of the errors R156 gives. -/
theorem decodeFrame_eq_error {m : Mode} {bs : List Byte} {e : DecodeError} (h : decodeFrame m bs = .error e) :
    e ∈ malformedErrors := by
  obtain ⟨extended, burst, w⟩ := m
  simp only [decodeFrame] at h
  split at h
  · refine bind_decodePayload_eq_error (fun p hp => ?_) h
    cases burst with
    | false => exact decodeS7_eq_error hp
    | true => exact decodeS6B_eq_error hp
  · refine bind_decodePayload_eq_error (fun p hp => ?_) h
    cases burst with
    | false => exact decodeX15_eq_error hp
    | true => exact decodeX14B_eq_error hp
  all_goals
    cases h
    decide

end Sys2Proof.Machine
end

section
/-! A step on an offer, in wire form or as a word of the opcode table (spec/20_memory.md R51, logs 5, 6, 8 and 9). -/

namespace Sys2Proof.Machine

/-- An offer waiting first that decodes to an instruction is performed as that instruction. -/
theorem step_of_decoded {s : State} {o : Offer} {rest : List Input} {i : Instr} (h : s.inputs = .offer o :: rest)
    (hd : decode s.session o = .ok i) : step s = exec i (s.setInputs rest) := by
  simp [step, takeInput, h, hd]

/-- Settles O42: the step decodes the first input under the session and performs it in the state without it. -/
theorem stepRunsTheDecodedInstruction : Obligations.StepRunsTheDecodedInstruction :=
  fun _ _ _ _ => step_of_decoded

theorem exec_ne_refused (i : Instr) (s : State) (r : Refusal) : exec i s ≠ .refused r := by
  rcases exec_writes i s with ⟨_, he⟩ | ⟨_, _, _, _, _, he⟩ <;> rw [he] <;> nofun

/-- Settles O44: bytes that decode are performed, and parse; bytes that do not decode are refused by their error, and do not parse,
because what parses decodes. -/
theorem wireFramesStopExactlyWhenMalformed : Obligations.WireFramesStopExactlyWhenMalformed := by
  intro s bytes rest h
  refine ⟨fun m hs => ?session, fun hs => ?noSession⟩
  case noSession => exact step_of_rejected h (by rw [hs]; rfl)
  case session =>
    cases hd : decodeFrame m bytes with
    | ok i =>
      obtain ⟨f, _, hparse⟩ := parseFrame_of_decodeFrame hd
      rw [step_of_decoded h (by rw [hs]; exact hd)]
      exact iff_of_false (fun ⟨_, hrefused⟩ => exec_ne_refused _ _ _ hrefused) (by simp [hparse])
    | error e =>
      rw [step_of_rejected h (by rw [hs]; exact hd), reject_of_malformed (decodeFrame_eq_error hd)]
      refine iff_of_true ⟨e, rfl⟩ (Option.eq_none_iff_forall_ne_some.mpr fun f hparse => ?_)
      obtain ⟨i, _, hok⟩ := decodeFrame_of_parseFrame hparse
      cases hd.symm.trans hok

/-! ## A word of the opcode table (log 8) -/

/-- A table word is a command, read under no mode, or a frame, read under the mode of its length. -/
theorem tableOffer_cases (nbits w : Nat) :
    (tableMode nbits w = none ∧ ∃ op x, tableOffer nbits w = .command op x) ∨
    (∃ m bytes, tableMode nbits w = some m ∧ tableOffer nbits w = .frame bytes) := by
  unfold tableMode tableOffer
  split
  · split
    · exact .inl ⟨rfl, _, _, rfl⟩
    · exact .inr ⟨_, _, rfl, rfl⟩
  · exact .inr ⟨_, _, rfl, rfl⟩

theorem decode_of_decodeTableWord {nbits w : Nat} {i : Instr} (h : decodeTableWord nbits w = some i) :
    decode (tableMode nbits w) (tableOffer nbits w) = .ok i := by
  rw [decodeTableWord] at h
  cases hd : decode (tableMode nbits w) (tableOffer nbits w) with
  | error e =>
    rw [hd] at h
    cases h
  | ok j =>
    rw [hd] at h
    cases h
    rfl

section
variable {s : State} {nbits w : Nat}

theorem withFetchWord_of_command (h : tableMode nbits w = none) :
    s.withFetchWord nbits w = s.setInputs (.offer (tableOffer nbits w) :: s.inputs) := by
  simp only [State.withFetchWord, offerTableWord, h]

theorem withFetchWord_of_frame {m : Mode} (h : tableMode nbits w = some m) :
    s.withFetchWord nbits w = (s.setInputs (.offer (tableOffer nbits w) :: s.inputs)).setSession (some m) := by
  simp only [State.withFetchWord, offerTableWord, h]

end

/-- Settles O46: a command reads the same under every session; a frame finds the mode it is read under put into the session, and is a
frame kind of that mode. -/
theorem tableWordIsPerformedNext : Obligations.TableWordIsPerformedNext := by
  intro s nbits w i h
  have hd := decode_of_decodeTableWord h
  rcases tableOffer_cases nbits w with ⟨hmode, op, x, hoffer⟩ | ⟨m, bytes, hmode, hoffer⟩ <;> rw [hmode, hoffer] at hd
  · have hnone : i.frameMode = none := (decodeCommand_eq_ok hd).2
    rw [withFetchWord_of_command hmode, hoffer]
    refine ⟨s, step_of_decoded rfl hd, rfl, rfl, fun _ => rfl, fun m hm => ?_⟩
    cases hnone.symm.trans hm
  · have hsome : i.frameMode = some m := decodeFrame_frameMode hd
    rw [withFetchWord_of_frame hmode, hoffer]
    refine ⟨s.setSession (some m), step_of_decoded rfl hd, rfl, rfl, fun hn => ?_, fun m' hm => hsome.symm.trans hm⟩
    cases hsome.symm.trans hn

end Sys2Proof.Machine
end

section
/-! What every step answers is sound for the session in force (spec/60_exceptions.md R170 to R179, spec/10_state.md R24). -/

namespace Sys2Proof.Machine

theorem raise_sound {st : Status} {s : State} (h : responseSound s.session ⟨st, none⟩ = true) : (raise st s).sound = true := h

theorem finish_sound {x : Result} {s : State} (h : resultSound s.session x = true) : (finish x s).sound = true := h

/-- ENCODE answers a frame of the session's mode, or an error the mode allows (R81, R173, R174, R176, R177). -/
theorem encodeOperation_sound (f : Frame) (s : State) : (encodeOperation f s).sound = true := by
  rcases encodeOperation_cases f s with ⟨hs, h⟩ | ⟨m, hs, hw, h⟩ | ⟨m, st, hs, he, h⟩ <;> rw [h]
  · exact raise_sound (by rw [hs]; rfl)
  · exact finish_sound (by rw [hs, resultSound, parseFrame_emit hw]; rfl)
  · rcases encodeIn_eq_error he with ⟨rfl, hm⟩ | rfl | rfl
    · exact raise_sound (by rw [hs]; simp [responseSound, hm])
    · exact raise_sound (by rw [hs]; rfl)
    · exact raise_sound (by rw [hs]; rfl)

theorem execConfigure_sound {c : CandidateMode} {s t : State} (h : execConfigure c s = .next t) : t.sound = true := by
  rcases execConfigure_cases c s with ⟨hs, he⟩ | ⟨hs, _, he⟩ | ⟨m, hs, _, he⟩ <;> cases he.symm.trans h
  · exact raise_sound (Option.isSome_iff_ne_none.mpr hs)
  · exact raise_sound (Option.isNone_iff_eq_none.mpr hs)
  · exact finish_sound rfl

/-- DECODE_RESPONSE answers words of the session's width, or the one error its response can have (R143, R175, R177). -/
theorem execDecodeResponse_sound {raw : List Byte} {s t : State} (h : execDecodeResponse raw s = .next t) :
    t.sound = true := by
  rcases execDecodeResponse_cases raw s with ⟨hs, he⟩ | ⟨m, hs, _, he⟩ | ⟨m, hs, _, he⟩ <;> cases he.symm.trans h
  · exact raise_sound (Option.isNone_iff_eq_none.mpr hs)
  · refine finish_sound ?_
    rw [hs, resultSound, List.all_eq_true]
    exact fun w hw => decide_eq_true (readWords_lt w hw)
  · exact raise_sound (by rw [hs]; rfl)

theorem exec_sound {i : Instr} {s t : State} (h : exec i s = .next t) : t.sound = true := by
  rcases exec_cases i s with ⟨c, _, he⟩ | ⟨raw, _, he⟩ | ⟨f, _, he⟩
  · exact execConfigure_sound (he.symm.trans h)
  · exact execDecodeResponse_sound (he.symm.trans h)
  · cases he.symm.trans h
    exact encodeOperation_sound f s

/-- The two statuses a rejected offer can raise: one is allowed in every session, the other is raised only without one (R177, R179). -/
theorem reject_sound {e : DecodeError} {s t : State} (hnone : e = .noMode → s.session = none) (h : reject e s = .next t) :
    t.sound = true := by
  rcases reject_eq_next h with ⟨_, rfl⟩ | ⟨he, rfl⟩
  · exact raise_sound rfl
  · exact raise_sound (Option.isNone_iff_eq_none.mpr (hnone he))

/-- Settles O47: an idle step and a reset leave the port empty; an instruction and a rejected offer answer soundly, whatever the state
was before. -/
theorem everyStepAnswersSoundly : Obligations.EveryStepAnswersSoundly := by
  intro s t h
  rcases step_cases s with ⟨_, he⟩ | ⟨rest, _, he⟩ | ⟨o, rest, i, _, _, he⟩ | ⟨o, rest, e, _, hd, he⟩ <;> rw [he] at h
  · cases h
    rfl
  · cases h
    rfl
  · exact exec_sound h
  · exact reject_sound (fun hmode => decode_noMode (hmode ▸ hd)) h

/-- Settles O48: the port is empty after reset. -/
theorem resetStateIsSound : Obligations.ResetStateIsSound := rfl

end Sys2Proof.Machine
end

section
/-! What an operation reads and writes, and how a step begins (spec/10_state.md R24, R27; spec/70_reset_and_hazards.md R200). -/

namespace Sys2Proof.Machine

/-! ## Reset, and nothing offered -/

/-- Settles O1: the reset event writes the session and the response. -/
theorem resetLeavesNoSessionAndNoResult : Obligations.ResetLeavesNoSessionAndNoResult :=
  ⟨rfl, rfl, rfl, fun _ _ => step_of_reset⟩

/-- A valid CONFIGURE waiting first, with no session, latches its operand (R101). -/
theorem step_of_validConfigure {s : State} {c : CandidateMode} {m : Mode} {rest : List Input}
    (h : s.inputs = .offer (encode (.configure c)) :: rest) (hs : s.session = none) (hm : toMode c = some m) :
    step s = .next (finish .nothing ((s.setInputs rest).setSession (some m))) :=
  (step_of_decoded h (decode_command_zero s.session _)).trans (execConfigure_of_valid hs hm)

/-- Settles O2: the reset event leaves no session, so CONFIGURE reaches the check of its width, which is legal. -/
theorem resetThenConfigureSucceeds : Obligations.ResetThenConfigureSucceeds := by
  intro s c rest h hwidth
  obtain ⟨m, hm⟩ := Option.isSome_iff_exists.mp ((toMode_isSome c).mpr hwidth)
  refine ⟨_, _, m, step_of_reset h, rfl, rfl, step_of_validConfigure rfl rfl hm, rfl, rfl, rfl, ?_⟩
  obtain rfl := toMode_eq_some hm
  exact ⟨rfl, rfl, rfl⟩

/-- Settles O45: with no input to take the step is the idle one. -/
theorem nothingHappensUnlessOffered : Obligations.NothingHappensUnlessOffered := by
  intro s h
  have hnone : takeInput s = none := by rw [takeInput, h]
  rw [step, hnone]
  rfl

/-! ## What an instruction reads and writes -/

theorem encodeOperation_response_congr {s s' : State} (hs : s.session = s'.session) (f : Frame) :
    (encodeOperation f s).response = (encodeOperation f s').response := by
  rw [encodeOperation, encodeOperation, hs]
  cases s'.session with
  | none => rfl
  | some m => simp only [answer_response]

/-- In a session DECODE_RESPONSE answers what the pure function answers under its mode (R141). -/
theorem execDecodeResponse_of_session {m : Mode} {s : State} (h : s.session = some m) (raw : List Byte) :
    execDecodeResponse raw s = .next (answer ((decodeIn m raw).map Result.words) s) := by
  rw [execDecodeResponse, h, ← decodeRaw_candidate]

theorem execDecodeResponse_congr {raw : List Byte} {s s' t t' : State} (hs : s.session = s'.session)
    (h : execDecodeResponse raw s = .next t) (h' : execDecodeResponse raw s' = .next t') : t.response = t'.response := by
  cases hm : s.session with
  | none =>
    cases (execDecodeResponse_of_noSession hm raw).symm.trans h
    cases (execDecodeResponse_of_noSession (hs ▸ hm) raw).symm.trans h'
    rfl
  | some m =>
    cases (execDecodeResponse_of_session hm raw).symm.trans h
    cases (execDecodeResponse_of_session (hs ▸ hm) raw).symm.trans h'
    simp only [answer_response]

/-- What an instruction leaves of the session and on the response port depends on the session alone (R24, R27). -/
theorem exec_congr {i : Instr} {s s' t t' : State} (hs : s.session = s'.session) (h : exec i s = .next t)
    (h' : exec i s' = .next t') : t.session = t'.session ∧ t.response = t'.response := by
  rcases exec_cases i s with ⟨c, rfl, _⟩ | ⟨raw, rfl, _⟩ | ⟨f, hf, _⟩
  · exact execConfigure_congr hs h h'
  · obtain ⟨r, hr⟩ := execDecodeResponse_eq_setResponse raw s
    obtain ⟨r', hr'⟩ := execDecodeResponse_eq_setResponse raw s'
    refine ⟨?_, execDecodeResponse_congr hs h h'⟩
    cases hr.symm.trans h
    cases hr'.symm.trans h'
    exact hs
  · cases (exec_of_issuedFrame hf s).symm.trans h
    cases (exec_of_issuedFrame hf s').symm.trans h'
    exact ⟨by rw [encodeOperation_session, encodeOperation_session, hs], encodeOperation_response_congr hs f⟩

theorem exec_eq_next (i : Instr) (s : State) : ∃ t, exec i s = .next t := by
  rcases exec_writes i s with ⟨_, he⟩ | ⟨_, _, _, _, _, he⟩
  · exact ⟨_, he⟩
  · exact ⟨_, he⟩

/-- Settles O40: every instruction completes and keeps the inputs; its operand and the session decide the rest. -/
theorem answerDependsOnSessionAndOperandAlone : Obligations.AnswerDependsOnSessionAndOperandAlone := by
  intro i s s' hs
  obtain ⟨t, h⟩ := exec_eq_next i s
  obtain ⟨t', h'⟩ := exec_eq_next i s'
  obtain ⟨hsession, hresponse⟩ := exec_congr hs h h'
  exact ⟨t, t', h, h', hsession, hresponse, exec_inputs h, exec_inputs h'⟩

/-- Settles O41: an instruction that writes more than the response is a CONFIGURE. -/
theorem operationsButConfigureWriteNoState : Obligations.OperationsButConfigureWriteNoState := by
  intro i s t hi h
  rcases exec_writes i s with ⟨r, he⟩ | ⟨c, _, rfl, _, _, _⟩
  · cases he.symm.trans h
    exact ⟨r, rfl⟩
  · exact absurd rfl (hi c)

theorem exec_eq_encode {i : Instr} {f : Frame} (h : issuedFrame i = some f) (s : State) : exec i s = exec (.encode f) s := by
  rw [exec_of_issuedFrame h, exec_of_issuedFrame rfl]

/-- Settles O23: each frame kind issues the frame with its address, its flags and its words. -/
theorem frameKindsAreEncodeShorthands : Obligations.FrameKindsAreEncodeShorthands := by
  intro a₇ a₆ a₁₅ a₁₄ d p s
  refine ⟨?_, ?_, ?_, ?_, ?_, ?_, ?_, ?_, ?_, ?_, ?_, ?_⟩ <;> exact exec_eq_encode rfl s

/-! ## The statuses (R171) -/

/-- The statuses in the order of their codes. -/
def statusTable : List Status :=
  [.ok, .unsupportedWidth, .burstNotSupported, .addressOutOfRange, .malformedResponse, .invalidFrame, .noSession,
    .alreadyConfigured, .illegalOperation]

theorem statusTable_code (st : Status) : statusTable[st.code]? = some st := by cases st <;> rfl

theorem code_injective {x y : Status} (h : x.code = y.code) : x = y :=
  Option.some.inj (by rw [← statusTable_code x, ← statusTable_code y, h])

theorem ok_mem_statusesOf (i : Instr) : .ok ∈ statusesOf i := by
  cases i <;> exact List.mem_cons_self

/-- Settles O37: the code of a status is its place in the table; an instruction raises a status of its own without a result, or finishes
with `OK` and one. -/
theorem statusesAreTheTable : Obligations.StatusesAreTheTable := by
  refine ⟨rfl, fun _ _ => code_injective, fun i s t r h hr => ?ends, fun s x rest h => ?reserved⟩
  case ends =>
    rcases exec_raises_or_finishes i s with ⟨st, hmem, hne, he⟩ | ⟨x, u, he⟩ <;> cases he.symm.trans h <;> cases hr
    · exact ⟨iff_of_false hne (not_not_intro rfl), hmem⟩
    · exact ⟨iff_of_true rfl nofun, ok_mem_statusesOf i⟩
  case reserved => exact ⟨_, reservedOpRaisesIllegalOperation s x rest h, rfl⟩

end Sys2Proof.Machine
end

section
/-! Byte sequences, the shorthands and the two operations in a session (spec/20_memory.md R45, spec/30_encoding.md R84,
spec/41_encode.md R112, spec/42_decode_response.md R142 to R144). -/

namespace Sys2Proof.Machine

/-! ## Big-endian byte sequences (R45) -/

theorem memRead_one {raw : List Byte} {k : Nat} {b : Byte} (h : raw[k]? = some b) : memRead raw k 1 = b.toNat := by
  have htake : (raw.drop k).take 1 = [b] := by
    rw [List.take_one, List.head?_drop, h]
    rfl
  rw [memRead_eq, htake, valueOf_one]

theorem memRead_memWrite {n v : Nat} (hn : n = 1 ∨ n = 2) (hv : v < 2 ^ (8 * n)) (out post : List Byte) :
    memRead (memWrite out n v ++ post) out.length n = v := by
  rw [memRead_eq, memWrite, List.append_assoc, List.drop_left, List.take_left' (length_be n v), valueOf_be hn hv]

theorem memWrite_two (out : List Byte) (v : Nat) :
    memWrite out 2 v = out ++ [BitVec.ofNat 8 (v / 256), BitVec.ofNat 8 (v % 256)] := by
  rw [memWrite, be_two, ofNat_mod_256]

/-- Settles O8: the bytes laid down are read where they stand, all of them or one at a time. -/
theorem bigEndianReadGivesBackWrite : Obligations.BigEndianReadGivesBackWrite := by
  refine ⟨fun out post n v hn hv => memRead_memWrite hn hv out post, fun out v _ => ?oneByte, fun out v _ => memWrite_two out v,
    fun out post v hv => ⟨?high, ?low⟩⟩
  case oneByte => rw [memWrite, be_one]
  case high =>
    have hbyte : (memWrite out 2 v ++ post)[out.length]? = some (BitVec.ofNat 8 (v / 256)) := by simp [memWrite_two]
    rw [memRead_one hbyte, BitVec.toNat_ofNat]
    omega
  case low =>
    have hbyte : (memWrite out 2 v ++ post)[out.length + 1]? = some (BitVec.ofNat 8 (v % 256)) := by simp [memWrite_two]
    rw [memRead_one hbyte, BitVec.toNat_ofNat]
    omega

/-! ## ENCODE and the shorthands -/

/-- Settles O10: a frame that is not well formed makes a check fire, and ENCODE raise. -/
theorem encodeAnswersBytesExactlyOnWellFormedFrames : Obligations.EncodeAnswersBytesExactlyOnWellFormedFrames := by
  intro m f s hs
  refine Iff.trans ⟨fun ⟨out, h⟩ => ?onlyThen, fun hw => ⟨_, exec_of_wellFormed rfl hs hw⟩⟩ (wellFormedFrame_iff m f)
  case onlyThen =>
    have hexec := exec_of_issuedFrame (i := .encode f) rfl s
    rcases encodeOperation_cases f s with ⟨_, he⟩ | ⟨m', hs', hw, _⟩ | ⟨_, _, _, _, he⟩
    · rw [he] at hexec
      cases hexec.symm.trans h
    · cases hs.symm.trans hs'
      exact hw
    · rw [he] at hexec
      cases hexec.symm.trans h

/-- `mkframe` derives the burst flag from the count, so that the two agree (R84). -/
theorem wellFormedFrame_mkFrame {m : Mode} {a : Nat} {w : Bool} {vs : List Nat} (ha : a < 2 ^ addressBits m) (hne : vs ≠ [])
    (hm : m.burstCapable = true ∨ vs.length = 1) (hfit : ∀ v ∈ vs, v < 2 ^ wordBits m) :
    wellFormedFrame m (mkFrame a w vs) = true :=
  (wellFormedFrame_iff _ _).mpr ⟨List.length_pos_iff.mpr hne, decide_eq_true_iff, hm, ha, hfit⟩

theorem frameWRB_eq_mkFrame {vs : List Nat} (h : 2 ≤ vs.length) (a : Nat) : frameWRB a vs = mkFrame a true vs := by
  rw [mkFrame, decide_eq_true (p := 1 < vs.length) h]
  rfl

theorem frameRDB_eq_mkFrame {n : Nat} (h : 2 ≤ n) (m : Mode) (a : Nat) :
    frameRDB m a n = mkFrame a false (List.replicate n (placeholderWord m)) := by
  rw [mkFrame, List.length_replicate, decide_eq_true (p := 1 < n) h]
  rfl

theorem placeholderWord_lt (m : Mode) : placeholderWord m < 2 ^ wordBits m := (Config.placeholder m.wordWidth).isLt

/-- Settles O25: each shorthand is `mkframe` of its words. -/
theorem shorthandFramesAreWellFormed : Obligations.ShorthandFramesAreWellFormed := by
  intro m a ha
  have hone (w : Bool) {v : Nat} (hv : v < 2 ^ wordBits m) : wellFormedFrame m (mkFrame a w [v]) = true :=
    wellFormedFrame_mkFrame ha (List.cons_ne_nil _ _) (.inr rfl) (List.forall_mem_singleton.mpr hv)
  refine ⟨fun v hv => hone true hv, hone false (placeholderWord_lt m), fun w vs hne hm hfit => wellFormedFrame_mkFrame ha hne hm hfit,
    fun hm => ⟨fun vs hlength hfit => ?WRB, fun n hn => ?RDB⟩⟩
  case WRB =>
    rw [frameWRB_eq_mkFrame hlength]
    exact wellFormedFrame_mkFrame ha (List.ne_nil_of_length_pos (by omega)) (.inl hm) hfit
  case RDB =>
    rw [frameRDB_eq_mkFrame hn]
    refine wellFormedFrame_mkFrame ha (List.ne_nil_of_length_pos (by rw [List.length_replicate]; omega)) (.inl hm) fun v hv => ?_
    rw [List.eq_of_mem_replicate hv]
    exact placeholderWord_lt m

/-! ## DECODE_RESPONSE -/

/-- Settles O28: behind the header there are the bytes of no word. -/
theorem headerOnlyResponseDecodesToNoWords : Obligations.HeaderOnlyResponseDecodesToNoWords := by
  intro m raw s hs hlength
  have hdecode : decodeIn m (raw ++ [].flatMap (be (wordBytes m))) = .ok [] := decodeIn_of_words hlength nofun
  rw [List.flatMap_nil, List.append_nil] at hdecode
  exact execDecodeResponse_of_ok hs hdecode

/-- `decode_response` looks at the length and at the bytes behind the header, and `burst_capable` changes neither `H` nor `S` (R144). -/
theorem decodeIn_congr {e b b' : Bool} {w : WordWidth} {raw raw' : List Byte} (hlength : raw.length = raw'.length)
    (hdrop : raw.drop (headerBytes ⟨e, b, w⟩) = raw'.drop (headerBytes ⟨e, b, w⟩)) :
    decodeIn ⟨e, b, w⟩ raw = decodeIn ⟨e, b', w⟩ raw' := by
  have hheader : headerBytes ⟨e, b, w⟩ = headerBytes ⟨e, b', w⟩ := rfl
  have hword : wordBytes ⟨e, b, w⟩ = wordBytes ⟨e, b', w⟩ := rfl
  rw [decodeIn, decodeIn, readWords_eq, readWords_eq, hdrop, hlength, hheader, hword]

/-- Settles O29: the pure function gives one answer for both. -/
theorem decodeResponseIgnoresHeaderAndBurst : Obligations.DecodeResponseIgnoresHeaderAndBurst := by
  intro e b b' w raw raw' s s' t t' hs hs' hlength hdrop h h'
  cases (execDecodeResponse_of_session hs raw).symm.trans h
  cases (execDecodeResponse_of_session hs' raw').symm.trans h'
  rw [answer_response, answer_response, decodeIn_congr hlength hdrop]

/-- Settles O30: the words answered are the words read, of a response that passed the two checks of its length. -/
theorem decodedWordsAccountForTheResponse : Obligations.DecodedWordsAccountForTheResponse := by
  intro m raw ws s t hs h hr
  rcases execDecodeResponse_cases raw s with ⟨_, he⟩ | ⟨m', hs', hok, he⟩ | ⟨_, _, _, he⟩ <;>
    cases he.symm.trans h <;> cases hr
  cases hs.symm.trans hs'
  obtain ⟨hheader, hwhole, _⟩ := decodeIn_eq_ok hok
  refine ⟨readWords_lt, ?_⟩
  rw [length_readWords_mul hwhole, Nat.sub_add_cancel hheader]

/-! ## Fixed words (R71, R82, R159) -/

/-- Settles O35: the five words are within reach of an evaluation of the decoder. -/
theorem writtenWordsDecode : Obligations.WrittenWordsDecode := by
  unfold Obligations.WrittenWordsDecode
  decide

/-- Settles O36: the four frames are within reach of an evaluation of the encoder. -/
theorem sameBytesUnderDifferentModes : Obligations.SameBytesUnderDifferentModes := by
  unfold Obligations.SameBytesUnderDifferentModes
  decide

end Sys2Proof.Machine
end

section
/-! The transfer composite on any far end, and on the block (spec/20_memory.md R49, spec/43_frame_meaning_and_laws.md R151 to R160). -/

namespace Sys2Proof.Machine

/-! ## The addresses of an expansion (R49, R152) -/

/-- The transactions of an expansion stand at the base address plus the place of their word. -/
theorem exists_mem_expand_adr {f : Frame} {readBack : List Nat} {P : Nat → Prop} :
    (∃ x ∈ expand f readBack, P x.adr) ↔ ∃ i < (transferredWords f readBack).length, P (f.address + i) := by
  constructor
  · rintro ⟨x, hx, hP⟩
    obtain ⟨i, hi⟩ := List.mem_iff_getElem?.mp hx
    rw [expand_getElem?] at hi
    obtain ⟨d, hd, rfl⟩ := Option.map_eq_some_iff.mp hi
    exact ⟨i, (List.getElem?_eq_some_iff.mp hd).1, hP⟩
  · rintro ⟨i, hi, hP⟩
    have htransaction := expand_getElem? f readBack i
    rw [List.getElem?_eq_getElem hi] at htransaction
    exact ⟨_, List.mem_of_getElem? htransaction, hP⟩

theorem length_transferredWords {f : Frame} {readBack : List Nat}
    (hread : f.isWrite = false → readBack.length = f.values.length) :
    (transferredWords f readBack).length = f.values.length := by
  rw [transferredWords_of_length hread]
  split
  · rfl
  · next hdirection => exact hread (Bool.eq_false_of_not_eq_true hdirection)

/-- Settles O50: no check looks at the last address; the addresses of the expansion are those from the base address to the last, so one is
outside the space exactly if the last is. -/
theorem overflowingFrameIsEncodedUnwrapped : Obligations.OverflowingFrameIsEncodedUnwrapped := by
  intro m f s readBack hs hw hread
  obtain ⟨hcount, _, _, _, _⟩ := (wellFormedFrame_iff m f).mp hw
  rw [wordCount] at hcount
  refine ⟨⟨_, exec_of_wellFormed rfl hs hw⟩, ?_⟩
  rw [exists_mem_expand_adr, length_transferredWords hread]
  refine ⟨fun h => ⟨f.values.length - 1, Nat.sub_lt hcount Nat.one_pos, ?_⟩, fun ⟨i, hi, h⟩ => ?_⟩
  · omega
  · omega

/-! ## One transfer (R154) -/

theorem transfer_of_words {σ : Type} {D : Device σ} {d d' : σ} {c : CandidateMode} {f : Frame} {out raw : List Byte} {ws : List Nat}
    (he : encodeFrame c f = .ok out) (hx : exchangeAll D (D.select d) out = (d', some raw)) (hd : decodeRaw c raw = .ok ws) :
    transfer D d c f = (D.deselect d', .words ws) := by
  rw [transfer_of_answered he hx, hd]

/-- The transfer of a frame that emits `out`: an exchange fails, or the response, which is as long as `out`, gives its words. -/
theorem transfer_of_wellFormed {σ : Type} (D : Device σ) (d : σ) {m : Mode} {f : Frame} (hw : wellFormedFrame m f = true) :
    ((exchangeAll D (D.select d) (emit m f)).2 = none ∧ (transfer D d (candidate m) f).2 = .transportError) ∨
    ∃ raw, (exchangeAll D (D.select d) (emit m f)).2 = some raw ∧ raw.length = (emit m f).length ∧
      (transfer D d (candidate m) f).2 = .words (readWords m raw) := by
  rcases hx : exchangeAll D (D.select d) (emit m f) with ⟨d', _ | raw⟩
  · exact .inl ⟨rfl, by rw [transfer_of_failed (encodeFrame_of_wellFormed hw) hx]⟩
  · have hlength : raw.length = (emit m f).length := exchangeAll_length D _ _ _ _ hx
    have hdecode : decodeRaw (candidate m) raw = .ok (readWords m raw) :=
      (decodeRaw_candidate m raw).trans (decodeIn_of_emit_length hlength)
    exact .inr ⟨raw, rfl, hlength, by rw [transfer_of_words (encodeFrame_of_wellFormed hw) hx hdecode]⟩

/-- A response as long as an emitted frame holds as many words. -/
theorem length_readWords_of_emit_length {m : Mode} {f : Frame} {raw : List Byte} (hlength : raw.length = (emit m f).length) :
    (readWords m raw).length = f.values.length := by
  rw [length_readWords, hlength, length_emit, Nat.add_sub_cancel_left, Nat.mul_div_cancel _ (wordBytes_pos m), wordCount]

/-- Settles O51: a well-formed frame is encoded, and a response as long as it is decodes to as many words. -/
theorem transferReturnsNWords : Obligations.TransferReturnsNWords := by
  intro σ D d m f
  refine ⟨fun hw => ?_, fun _ => transfer_of_refused⟩
  rcases transfer_of_wellFormed D d hw with ⟨_, h⟩ | ⟨raw, _, hlength, h⟩
  · exact .inl h
  · exact .inr ⟨_, h, length_readWords_of_emit_length hlength, readWords_lt⟩

theorem linesXfer_of_answered {σ : Type} {D : Device σ} {d : σ} {m : Mode} {f : Frame} {out raw : List Byte}
    (he : encodeFrame (candidate m) f = .ok out) (hx : (exchangeAll D (D.select d) out).2 = some raw) :
    linesXfer D d m f = [.offer (encode (.encode f)), .offer (encode (.decodeResponse raw))] := by
  simp only [linesXfer, he, hx]
  rfl

/-- If a transfer gives words, its frame is well formed. -/
theorem wellFormedFrame_of_transfer_words {σ : Type} {D : Device σ} {d : σ} {m : Mode} {f : Frame} {ws : List Nat}
    (h : (transfer D d (candidate m) f).2 = .words ws) : wellFormedFrame m f = true := by
  cases he : encodeFrame (candidate m) f with
  | error st =>
    rw [transfer_of_refused he] at h
    cases h
  | ok out => exact (encodeIn_eq_ok (encodeFrame_candidate m f ▸ he)).1

section
variable {s : State} {m : Mode} {rest : List Input} (hs : s.session = some m)
include hs

theorem step_of_encode {f : Frame} (h : s.inputs = .offer (encode (.encode f)) :: rest) (hw : wellFormedFrame m f = true) :
    step s = .next (finish (.bytes (emit m f)) (s.setInputs rest)) :=
  (step_of_decoded h (decode_command_one s.session _)).trans (exec_of_wellFormed rfl hs hw)

theorem step_of_decodeResponse {raw : List Byte} {ws : List Nat} (h : s.inputs = .offer (encode (.decodeResponse raw)) :: rest)
    (hd : decodeIn m raw = .ok ws) : step s = .next (finish (.words ws) (s.setInputs rest)) :=
  (step_of_decoded h (decode_command_two s.session _)).trans (execDecodeResponse_of_ok hs hd)

end

/-- Settles O52: the first step answers the emitted bytes and keeps the session; the second decodes the response as the transfer does. -/
theorem xferOnTheBlockIsTheTransfer : Obligations.XferOnTheBlockIsTheTransfer := by
  intro σ D d m f ws s rest hs hinputs hwords
  have hw := wellFormedFrame_of_transfer_words hwords
  have he := encodeFrame_of_wellFormed hw
  rcases transfer_of_wellFormed D d hw with ⟨_, h⟩ | ⟨raw, hx, hlength, h⟩
  · cases h.symm.trans hwords
  · cases h.symm.trans hwords
    rw [linesXfer_of_answered he hx] at hinputs
    have hdecode : decodeIn m raw = .ok (readWords m raw) := decodeIn_of_emit_length hlength
    have hsecond := step_of_decodeResponse (s := finish (.bytes (emit m f)) (s.setInputs (.offer (encode (.decodeResponse raw)) :: rest)))
      hs rfl hdecode
    exact ⟨_, _, emit m f, he, step_of_encode hs hinputs hw, rfl, hsecond, rfl⟩

/-- Settles O53: the response of the mirror device is the emitted frame itself. -/
theorem mirrorTransferReturnsTheValues : Obligations.MirrorTransferReturnsTheValues := by
  intro m f hw
  exact transfer_of_words (encodeFrame_of_wellFormed hw) (exchangeAll_mirror _) ((decodeRaw_candidate m _).trans (decodeIn_emit hw))

/-! ## Successive transfers to a conformant bridge (R160) -/

theorem insideSpace_of_lastAddress {m : Mode} {f : Frame} (hw : wellFormedFrame m f = true)
    (hlast : f.address + f.values.length - 1 < 2 ^ addressBits m) : insideSpace m f = true := by
  obtain ⟨hcount, _, _, _, _⟩ := (wellFormedFrame_iff m f).mp hw
  refine decide_eq_true ?_
  rw [wordCount] at hcount ⊢
  omega

/-- If all of a sequence of transfers give words, so does the first, and then the others. -/
theorem transferAll_cons_words {σ : Type} {D : Device σ} {d : σ} {c : CandidateMode} {f : Frame} {fs : List Frame}
    {wss : List (List Nat)} (h : (transferAll D d c (f :: fs)).2 = wss.map .words) :
    ∃ ws rest, wss = ws :: rest ∧ (transfer D d c f).2 = .words ws ∧
      (transferAll D (transfer D d c f).1 c fs).2 = rest.map .words ∧
      (transferAll D d c (f :: fs)).1 = (transferAll D (transfer D d c f).1 c fs).1 := by
  by_cases hend : (transfer D d c f).2 = .transportError
  · rw [transferAll_of_transportError hend] at h
    obtain ⟨ws, rest, _, hws, _⟩ := List.map_eq_cons_iff.mp h.symm
    cases hws
  · rw [transferAll_of_end hend] at h ⊢
    obtain ⟨ws, rest, hwss, hws, hrest⟩ := List.map_eq_cons_iff.mp h.symm
    exact ⟨ws, rest, hwss, hws.symm, hrest.symm, rfl⟩

/-- Settles O56, by induction on the frames: each transfer leaves a valid far end and one more expansion on the bus. -/
theorem conformantBridgeShowsTheExpansions : Obligations.ConformantBridgeShowsTheExpansions := by
  intro σ D m valid busLog d fs wss hconformant hvalid hfs hends
  induction fs generalizing d wss with
  | nil =>
    rw [List.zip_nil_left]
    exact (List.append_nil _).symm
  | cons f fs ih =>
    obtain ⟨ws, rest, rfl, hfirst, hothers, hstate⟩ := transferAll_cons_words hends
    obtain ⟨hw, hlast⟩ := hfs f List.mem_cons_self
    obtain ⟨hvalid', hlog⟩ := hconformant d f ws hvalid hw (insideSpace_of_lastAddress hw hlast) hfirst
    have hexpand : expandAll ((f, ws) :: fs.zip rest) = expand f ws ++ expandAll (fs.zip rest) := List.flatMap_cons
    rw [hstate, ih _ rest hvalid' (fun g hg => hfs g (List.mem_cons_of_mem f hg)) hothers, hlog, List.zip_cons_cons, hexpand,
      List.append_assoc]

end Sys2Proof.Machine
end

section
/-! The memory device: its response to a frame, and what a transfer leaves of it (spec/43_frame_meaning_and_laws.md R153, R155). -/

namespace Sys2Proof.Machine

/-! ## The memory -/

/-- The words that stand at `n` addresses from `a` on. -/
def memoryWords (mem : List (Nat × Nat)) (a n : Nat) : List Nat := (List.range n).map (fun i => memoryRead mem (a + i))

@[simp] theorem length_memoryWords (mem : List (Nat × Nat)) (a n : Nat) : (memoryWords mem a n).length = n := by
  simp [memoryWords]

theorem memoryWords_getD {mem : List (Nat × Nat)} {a n i : Nat} (h : i < n) :
    (memoryWords mem a n).getD i 0 = memoryRead mem (a + i) := by
  simp [memoryWords, h]

/-- The words just written are the words that stand there. -/
theorem memoryWords_memoryWriteAll {mem : List (Nat × Nat)} (hm : Memory.wf mem = true) (a : Nat) (vs : List Nat) :
    memoryWords (memoryWriteAll mem a vs) a vs.length = vs := by
  refine List.ext_getElem (length_memoryWords _ _ _) fun i hi hi' => ?_
  simp [memoryWords, memoryRead_memoryWriteAll hm, hi']

theorem fits_iff {m : Mode} {mem : List (Nat × Nat)} : Memory.fits m mem = true ↔ ∀ e ∈ mem, e.2 < 2 ^ wordBits m := by
  simp [Memory.fits]

section
variable {m : Mode} {mem : List (Nat × Nat)} (hfit : Memory.fits m mem = true)
include hfit

/-- An address reads as an entry or as unwritten, and both are words of the width. -/
theorem memoryRead_lt (a : Nat) : memoryRead mem a < 2 ^ wordBits m := by
  rw [fits_iff] at hfit
  induction mem with
  | nil => exact Nat.two_pow_pos _
  | cons e rest ih =>
    rw [memoryRead]
    split
    · exact hfit e List.mem_cons_self
    · exact ih fun e' he' => hfit e' (List.mem_cons_of_mem e he')

theorem memoryWords_lt {a n : Nat} : ∀ w ∈ memoryWords mem a n, w < 2 ^ wordBits m := by
  intro w hw
  obtain ⟨i, _, rfl⟩ := List.mem_map.mp hw
  exact memoryRead_lt hfit _

theorem memoryWrite_fits {a v : Nat} (hv : v < 2 ^ wordBits m) : Memory.fits m (memoryWrite mem a v) = true := by
  rw [fits_iff] at hfit ⊢
  intro e he
  rcases mem_memoryWrite he with rfl | hmem
  · exact hv
  · exact hfit e hmem

theorem memoryWriteAll_fits {a : Nat} {vs : List Nat} (hvs : ∀ v ∈ vs, v < 2 ^ wordBits m) :
    Memory.fits m (memoryWriteAll mem a vs) = true := by
  induction vs generalizing mem a with
  | nil => exact hfit
  | cons v vs ih =>
    exact ih (memoryWrite_fits hfit (hvs v List.mem_cons_self)) (fun w hw => hvs w (List.mem_cons_of_mem v hw))

end

/-! ## What a transfer leaves of the device -/

/-- What the device drives while the bytes `out` are sent to it. -/
def memoryResponse (d : MemoryDevice) (out : List Byte) : List Byte :=
  (List.range out.length).map (fun k => memoryDrive { d with received := out.take k })

@[simp] theorem length_memoryResponse (d : MemoryDevice) (out : List Byte) : (memoryResponse d out).length = out.length := by
  simp [memoryResponse]

theorem exchangeAll_memoryDevice (d : MemoryDevice) (out : List Byte) :
    exchangeAll memoryDevice (memoryDevice.select d) out = ({ d with received := out }, some (memoryResponse d out)) :=
  exchangeAll_memory out (memoryDevice.select d)

/-- A frame that is encoded leaves the device as its deassertion of chip-select does (R155). -/
theorem transfer_memoryDevice_state {d : MemoryDevice} {c : CandidateMode} {f : Frame} {out : List Byte}
    (he : encodeFrame c f = .ok out) : (transfer memoryDevice d c f).1 = memoryCommit { d with received := out } := by
  rw [transfer_of_answered he (exchangeAll_memoryDevice d out)]
  rfl

theorem memoryCommit_wf {d : MemoryDevice} (hm : Memory.wf d.mem = true) : Memory.wf (memoryCommit d).mem = true := by
  unfold memoryCommit
  split
  · exact hm
  · next f _ =>
    show Memory.wf (if f.isWrite then memoryWriteAll d.mem f.address f.values else d.mem) = true
    split
    · exact memoryWriteAll_wf hm _ _
    · exact hm

/-- Settles O55: a refused frame leaves the device alone; any other is committed, and a commit writes word by word. -/
theorem memoryDeviceKeepsCanonicalMemory : Obligations.MemoryDeviceKeepsCanonicalMemory := by
  intro d c f hm
  cases he : encodeFrame c f with
  | error st => rw [transfer_of_refused he]; exact hm
  | ok out =>
    rw [transfer_memoryDevice_state he]
    exact memoryCommit_wf (d := { d with received := out }) hm

/-- An emitted frame is committed as the frame it is. -/
theorem memoryCommit_emit {d : MemoryDevice} {f : Frame} (hw : wellFormedFrame d.mode f = true) :
    memoryCommit { d with received := emit d.mode f } =
      { d with
        received := []
        mem := if f.isWrite then memoryWriteAll d.mem f.address f.values else d.mem
        log := d.log ++ expand f (memoryWords d.mem f.address (wordCount f)) } := by
  simp only [memoryCommit, parseFrame_emit hw, memoryWords]

theorem transfer_memoryDevice {d : MemoryDevice} {f : Frame} (hw : wellFormedFrame d.mode f = true) :
    transfer memoryDevice d (candidate d.mode) f =
      (memoryCommit { d with received := emit d.mode f },
       .words (readWords d.mode (memoryResponse d (emit d.mode f)))) :=
  transfer_of_words (encodeFrame_of_wellFormed hw) (exchangeAll_memoryDevice d _)
    ((decodeRaw_candidate _ _).trans (decodeIn_of_emit_length (length_memoryResponse _ _)))

theorem expand_of_isWrite {f : Frame} (h : f.isWrite = true) (readBack : List Nat) : expand f readBack = expand f [] := by
  rw [expand, expand, transferredWords, transferredWords, if_pos h, if_pos h]

/-- A write puts the frame's words into the memory and its expansion into the log. -/
theorem transfer_memoryDevice_of_write {d : MemoryDevice} {f : Frame} (hw : wellFormedFrame d.mode f = true)
    (hwrite : f.isWrite = true) : (transfer memoryDevice d (candidate d.mode) f).1 =
      { d with received := [], mem := memoryWriteAll d.mem f.address f.values, log := d.log ++ expand f [] } := by
  rw [transfer_memoryDevice hw, memoryCommit_emit hw, if_pos hwrite, expand_of_isWrite hwrite]

/-! ## What the device drives during a read frame (R155) -/

section
variable {d : MemoryDevice} {f : Frame} (hw : wellFormedFrame d.mode f = true) (hread : f.isWrite = false)
include hw hread

/-- Once the header is received, the device drives the bytes of the words at the frame's addresses. -/
theorem memoryDrive_of_read {k : Nat} (hk : headerBytes d.mode + k ≤ (emit d.mode f).length) :
    memoryDrive { d with received := (emit d.mode f).take (headerBytes d.mode + k) } =
      (be (wordBytes d.mode) (memoryRead d.mem (f.address + k / wordBytes d.mode))).getD (k % wordBytes d.mode) 0#8 := by
  have hframe := frameOfBytes_of_emit hw
  have hheader : ((emit d.mode f).take (headerBytes d.mode + k)).take (headerBytes d.mode) =
      (emit d.mode f).take (headerBytes d.mode) := by
    rw [List.take_take, Nat.min_eq_left (Nat.le_add_right _ _)]
  have haddress : (frameOfBytes d.mode ((emit d.mode f).take (headerBytes d.mode + k))).address = f.address := by
    rw [← congrArg Frame.address hframe, frameOfBytes_eq, frameOfBytes_eq, hheader]
    rfl
  have hdirection : (frameOfBytes d.mode ((emit d.mode f).take (headerBytes d.mode + k))).isWrite = false := by
    rw [← hread, ← congrArg Frame.isWrite hframe, frameOfBytes_eq, frameOfBytes_eq, hheader]
    rfl
  have hlength : ((emit d.mode f).take (headerBytes d.mode + k)).length = headerBytes d.mode + k := by
    rw [List.length_take, Nat.min_eq_left hk]
  simp only [memoryDrive, hlength, haddress, hdirection, Nat.add_sub_cancel_left, Nat.not_lt.mpr (Nat.le_add_right _ _),
    Bool.false_eq_true, or_self, if_false]

/-- Behind the header the response to a read frame is the words at its addresses. -/
theorem memoryResponse_drop_header : (memoryResponse d (emit d.mode f)).drop (headerBytes d.mode) =
    (memoryWords d.mem f.address (wordCount f)).flatMap (be (wordBytes d.mode)) := by
  have hlength : (emit d.mode f).length = headerBytes d.mode + wordCount f * wordBytes d.mode := length_emit _ _
  refine List.ext_getElem? fun k => ?_
  rw [List.getElem?_drop]
  by_cases hk : k < wordCount f * wordBytes d.mode
  · have hword : k / wordBytes d.mode < wordCount f := (Nat.div_lt_iff_lt_mul (wordBytes_pos _)).mpr hk
    rw [getElem?_flatMap_be (wordBytes_pos _) _ _ (by rwa [length_memoryWords]), memoryWords_getD hword,
      ← memoryDrive_of_read hw hread (by omega), memoryResponse,
      List.getElem?_map, List.getElem?_range (by omega)]
    rfl
  · rw [List.getElem?_eq_none (by rw [length_memoryResponse]; omega),
      List.getElem?_eq_none (by rw [length_flatMap_be, length_memoryWords]; omega)]

/-- A read whose words fit the width returns them, and leaves the memory as it was. -/
theorem transfer_memoryDevice_of_read (hfit : ∀ w ∈ memoryWords d.mem f.address (wordCount f), w < 2 ^ wordBits d.mode) :
    transfer memoryDevice d (candidate d.mode) f =
      ({ d with received := [], log := d.log ++ expand f (memoryWords d.mem f.address (wordCount f)) },
       .words (memoryWords d.mem f.address (wordCount f))) := by
  have hheader : ((memoryResponse d (emit d.mode f)).take (headerBytes d.mode)).length = headerBytes d.mode := by
    rw [List.length_take, length_memoryResponse, length_emit, Nat.min_eq_left (Nat.le_add_right _ _)]
  have hdecode := decodeIn_of_words hheader hfit
  rw [← memoryResponse_drop_header hw hread, List.take_append_drop] at hdecode
  obtain ⟨_, _, hwords⟩ := decodeIn_eq_ok hdecode
  rw [transfer_memoryDevice hw, ← hwords, memoryCommit_emit hw, hread, if_neg Bool.false_ne_true]

end

/-- Settles O54: the write leaves its words in the memory, where the read of the same addresses finds them. -/
theorem memoryDeviceReadsBackWhatWasWritten : Obligations.MemoryDeviceReadsBackWhatWasWritten := by
  intro d f g hm hf hg hwrite hread haddress hcount
  obtain ⟨_, _, _, _, hfit⟩ := (wellFormedFrame_iff d.mode f).mp hf
  have hwords : memoryWords (memoryWriteAll d.mem f.address f.values) g.address (wordCount g) = f.values := by
    rw [haddress, wordCount, hcount, memoryWords_memoryWriteAll hm]
  rw [transfer_memoryDevice_of_write hf hwrite]
  have htransfer := transfer_memoryDevice_of_read
    (d := { d with received := [], mem := memoryWriteAll d.mem f.address f.values, log := d.log ++ expand f [] }) hg hread
    (by rw [hwords]; exact hfit)
  rw [hwords] at htransfer
  simp only [htransfer, and_self]

/-- Settles O57: a write keeps the width of the words and returns some; a read returns the words its expansion reads. -/
theorem memoryDeviceIsConformant : Obligations.MemoryDeviceIsConformant := by
  intro m
  refine ⟨fun d f ws ⟨hmode, hfit⟩ hw _ hwords => ?conformant, fun d f hmode _ hw => ?completes⟩
  case conformant =>
    subst hmode
    cases hdirection : f.isWrite with
    | true =>
      obtain ⟨_, _, _, _, hvalues⟩ := (wellFormedFrame_iff d.mode f).mp hw
      rw [transfer_memoryDevice_of_write hw hdirection, expand_of_isWrite hdirection ws]
      exact ⟨⟨rfl, memoryWriteAll_fits hfit hvalues⟩, rfl⟩
    | false =>
      have htransfer := transfer_memoryDevice_of_read hw hdirection (memoryWords_lt hfit)
      rw [htransfer] at hwords ⊢
      cases hwords
      exact ⟨⟨rfl, hfit⟩, rfl⟩
  case completes =>
    subst hmode
    exact ⟨_, by rw [transfer_memoryDevice hw]⟩

end Sys2Proof.Machine
end

section
/-! What successive transfers put on the link (spec/70_reset_and_hazards.md R204, R205; spec/60_exceptions.md R184). -/

namespace Sys2Proof.Machine

/-! ## One transfer with its link recorded -/

/-- Recording the link changes neither the far end nor what it answers. -/
theorem exchangeAll_traced_answer {σ : Type} (D : Device σ) (out : List Byte) (d : σ) (t : List LinkEvent) :
    ((exchangeAll (traced D) (d, t) out).1.1, (exchangeAll (traced D) (d, t) out).2) = exchangeAll D d out := by
  induction out generalizing d t with
  | nil => rfl
  | cons b rest ih =>
    have hstep : (traced D).exchange (d, t) b = (((D.exchange d b).1, t ++ [.send b]), (D.exchange d b).2) := rfl
    rw [exchangeAll, exchangeAll, hstep]
    rcases D.exchange d b with ⟨d', _ | r⟩
    · rfl
    · have ih := ih d' (t ++ [.send b])
      simp only
      rcases hx : exchangeAll (traced D) (d', t ++ [.send b]) rest with ⟨⟨d'', l⟩, o⟩
      rw [hx] at ih ⊢
      rw [← ih]
      cases o <;> rfl

/-- What a transfer that begins the frame and is cut short by a transport error puts on the link: chip-select asserted and a first part
of the bytes. -/
def CutShort (c : CandidateMode) (f : Frame) (link : List LinkEvent) : Prop :=
  ∃ (out : List Byte) (k : Nat), encodeFrame c f = .ok out ∧ k ≤ out.length ∧ link = .assertSelect :: (out.take k).map .send

/-- What a transfer adds to the link, by how it ends: the whole frame, or its first part after a transport error. -/
def TransferLink (c : CandidateMode) (f : Frame) (e : TransferEnd) (link : List LinkEvent) : Prop :=
  (e ≠ .transportError ∧ link = frameEvents c f) ∨ (e = .transportError ∧ CutShort c f link)

theorem frameEvents_of_ok {c : CandidateMode} {f : Frame} {out : List Byte} (he : encodeFrame c f = .ok out) :
    frameEvents c f = .assertSelect :: out.map .send ++ [.deassertSelect] := by
  simp only [frameEvents, he]

/-- A far end that answers every byte lets the transfer end in a status or in words. -/
theorem transfer_of_answered_end {σ : Type} {D : Device σ} {d d' : σ} {c : CandidateMode} {f : Frame} {out raw : List Byte}
    (he : encodeFrame c f = .ok out) (hx : exchangeAll D (D.select d) out = (d', some raw)) :
    (transfer D d c f).2 ≠ .transportError := by
  rw [transfer_of_answered he hx]
  cases decodeRaw c raw <;> nofun

/-- A transfer with the link recorded ends as the transfer does, and adds the whole frame, or its first part. -/
theorem transfer_traced {σ : Type} (D : Device σ) (d : σ) (t : List LinkEvent) (c : CandidateMode) (f : Frame) :
    ∃ link, transfer (traced D) (d, t) c f = (((transfer D d c f).1, t ++ link), (transfer D d c f).2) ∧
      TransferLink c f (transfer D d c f).2 link := by
  cases he : encodeFrame c f with
  | error st =>
    have hnone : frameEvents c f = [] := by simp only [frameEvents, he]
    rw [transfer_of_refused he, transfer_of_refused he]
    exact ⟨[], by rw [List.append_nil], .inl ⟨nofun, hnone.symm⟩⟩
  | ok out =>
    have hanswer := exchangeAll_traced_answer D out (D.select d) (t ++ [.assertSelect])
    obtain ⟨hcomplete, hcut⟩ := exchangeAll_traced D out (D.select d) (t ++ [.assertSelect])
    rcases hx : exchangeAll (traced D) (D.select d, t ++ [.assertSelect]) out with ⟨⟨d', l⟩, _ | raw⟩
    · rw [hx] at hanswer hcut
      obtain ⟨k, hk, hl⟩ := hcut rfl
      rw [transfer_of_failed (D := traced D) (d := (d, t)) he hx, transfer_of_failed he hanswer.symm]
      refine ⟨_, ?_, .inr ⟨rfl, out, k, he, hk, rfl⟩⟩
      rw [show l = _ from hl, List.append_assoc]
      rfl
    · rw [hx] at hanswer hcomplete
      have hl : l = t ++ [.assertSelect] ++ out.map .send := hcomplete rfl
      refine ⟨frameEvents c f, ?_, .inl ⟨transfer_of_answered_end he hanswer.symm, rfl⟩⟩
      rw [transfer_of_answered (D := traced D) (d := (d, t)) he hx, transfer_of_answered he hanswer.symm, frameEvents_of_ok he, hl]
      simp [traced]

/-! ## Successive transfers -/

/-- What a sequence of transfers, none of which ends in a transport error, puts on the link. -/
def AllWhole (c : CandidateMode) (fs : List Frame) (ends : List TransferEnd) (link : List LinkEvent) : Prop :=
  .transportError ∉ ends ∧ ends.length = fs.length ∧ link = fs.flatMap (frameEvents c)

/-- What a sequence of transfers that a transport error ends puts on the link: the whole frames before, and a first part of one. -/
def LastCutShort (c : CandidateMode) (fs : List Frame) (ends : List TransferEnd) (link : List LinkEvent) : Prop :=
  ∃ (before : List TransferEnd) (f : Frame) (part : List LinkEvent), ends = before ++ [.transportError] ∧
    .transportError ∉ before ∧ fs[before.length]? = some f ∧ CutShort c f part ∧
    link = (fs.take before.length).flatMap (frameEvents c) ++ part

section
variable {c : CandidateMode} {f : Frame} {fs : List Frame} {e : TransferEnd} {ends : List TransferEnd} {link : List LinkEvent}
  (he : e ≠ .transportError)
include he

theorem AllWhole.cons (h : AllWhole c fs ends link) : AllWhole c (f :: fs) (e :: ends) (frameEvents c f ++ link) := by
  obtain ⟨hends, hlength, rfl⟩ := h
  exact ⟨List.not_mem_cons_of_ne_of_not_mem he.symm hends, congrArg (· + 1) hlength, List.flatMap_cons.symm⟩

theorem LastCutShort.cons (h : LastCutShort c fs ends link) :
    LastCutShort c (f :: fs) (e :: ends) (frameEvents c f ++ link) := by
  obtain ⟨before, g, part, rfl, hbefore, hg, hpart, rfl⟩ := h
  refine ⟨e :: before, g, part, rfl, List.not_mem_cons_of_ne_of_not_mem he.symm hbefore, hg, hpart, ?_⟩
  rw [List.length_cons, List.take_succ_cons, List.flatMap_cons, List.append_assoc]

end

/-- A sequence of transfers with the link recorded ends as the sequence does, and adds whole frames one after the other, the last of
them perhaps cut short; by induction on the frames. -/
theorem transferAll_traced {σ : Type} (D : Device σ) (d : σ) (t : List LinkEvent) (c : CandidateMode) (fs : List Frame) :
    ∃ link, transferAll (traced D) (d, t) c fs = (((transferAll D d c fs).1, t ++ link), (transferAll D d c fs).2) ∧
      (AllWhole c fs (transferAll D d c fs).2 link ∨ LastCutShort c fs (transferAll D d c fs).2 link) := by
  induction fs generalizing d t with
  | nil => exact ⟨[], by rw [List.append_nil]; rfl, .inl ⟨List.not_mem_nil, rfl, rfl⟩⟩
  | cons f fs ih =>
    obtain ⟨part, htransfer, hpart⟩ := transfer_traced D d t c f
    have hend : (transfer (traced D) (d, t) c f).2 = (transfer D d c f).2 := by rw [htransfer]
    rcases hpart with ⟨hne, rfl⟩ | ⟨herror, hcut⟩
    · obtain ⟨link, hrest, hlink⟩ := ih (transfer D d c f).1 (t ++ frameEvents c f)
      rw [transferAll_of_end (hend.trans_ne hne), transferAll_of_end hne, htransfer, hrest]
      exact ⟨frameEvents c f ++ link, by rw [List.append_assoc], hlink.imp (AllWhole.cons hne) (LastCutShort.cons hne)⟩
    · rw [transferAll_of_transportError (hend.trans herror), transferAll_of_transportError herror, htransfer]
      exact ⟨part, rfl, .inr ⟨[], f, part, rfl, List.not_mem_nil, rfl, hcut, rfl⟩⟩

/-- Settles O58: the link starts empty, and which of the two forms it takes is told by whether a transport error is among the ends. -/
theorem framesDoNotOverlapOnTheLink : Obligations.FramesDoNotOverlapOnTheLink := by
  intro σ D d c fs
  obtain ⟨link, htransfers, hlink⟩ := transferAll_traced D d [] c fs
  rw [htransfers, List.nil_append]
  refine ⟨rfl, fun hwhole => ?whole, fun hcut => ?cutShort⟩
  case whole =>
    rcases hlink with ⟨_, hlength, rfl⟩ | ⟨before, _, _, hends, _⟩
    · exact ⟨hlength, rfl⟩
    · exact absurd (hends ▸ List.mem_append_right before List.mem_cons_self) hwhole
  case cutShort =>
    rcases hlink with ⟨hnone, _, _⟩ | ⟨before, f, _, hends, hbefore, hf, ⟨out, k, he, hk, rfl⟩, rfl⟩
    · exact absurd hcut hnone
    · exact ⟨before, f, out, k, hends, hbefore, hf, he, hk, rfl⟩

end Sys2Proof.Machine
end
